-- ==== Sys2Proof/Word.lean ====
section
/-! DEFINITION. The words of SGEPY-CORE: bytes, 16-bit words, 32-bit longs, register numbers and operand
sizes (00_scope.md R7, R8, R10). -/

namespace Sys2Proof

/-- One byte of a memory. -/
abbrev Byte := BitVec 8

/-- A 16-bit word: an opcode word, an extension word, the status value. -/
abbrev Word := BitVec 16

/-- A 32-bit long: a data or address register, the program counter, an address while it is computed. -/
abbrev Long := BitVec 32

/-- A 3-bit register or mode field (00_scope.md R8, 40_effective_address.md R120). -/
abbrev RegNum := Fin 8

/-- An operand size: 1, 2 or 4 bytes (00_scope.md R10). -/
inductive Size where
  | byte
  | word
  | long
  deriving DecidableEq, Repr

end Sys2Proof
end

