-- ==== Sys2Proof/Config.lean ====
section
/-! DEFINITION. The implementation parameters of 00_scope.md R6 and their legal ranges.
`CoreParams` are those a step depends on: they stand in `State`, so that a claim about every state holds for
every value (log 1). `VideoParams` and `ResetParams` are arguments of the compositor, the video port and the
reset (log 14). No claim rests on a chosen value of a parameter the spec leaves OPEN. -/

namespace Sys2Proof

/-- What a short branch with displacement byte 0 means (41_control.md R165, 92 D14). -/
inductive BranchD8Zero where
  | zeroOffset
  | wordEscape
  deriving DecidableEq, Repr

/-- What an unknown opcode does after its signal: `continue` or `halt` (60_exceptions.md R265, 92 D16). -/
inductive UnknownPolicy where
  | continues
  | halt
  deriving DecidableEq, Repr

/-- Rounding of the colour scaling (43_tile_compositor.md R225, 92 D30). -/
inductive ChannelRounding where
  | floor
  | nearest
  deriving DecidableEq, Repr

/-- The parameters the processor's step depends on. -/
structure CoreParams where
  /-- MEM_SIZE: bytes in AddressSpace (10_state.md R28). -/
  memSize : Nat
  /-- BRANCH_D8_ZERO. -/
  branchD8Zero : BranchD8Zero
  /-- HAS_BNE: whether 0x66xx is BNE.S (30_encoding.md R97). -/
  hasBne : Bool
  /-- UNKNOWN_POLICY. -/
  unknownPolicy : UnknownPolicy
  deriving DecidableEq, Repr

/-- The spec's defaults (00_scope.md R6). -/
def CoreParams.default : CoreParams :=
  { memSize := 0x01000000, branchD8Zero := .zeroOffset, hasBne := false, unknownPolicy := .continues }

/-- The smallest MEM_SIZE that leaves `8 <= MIN_IMAGE_SIZE <= MEM_SIZE` a value (00_scope.md R6).
DEDUCED, safe: log 15. -/
abbrev CoreParams.legal (p : CoreParams) : Prop := 8 ≤ p.memSize

/-- The parameters of the video memory and the compositor (00_scope.md R6, 10_state.md R31 to R36,
43_tile_compositor.md). A field with a default has the spec's; the others are OPEN. -/
structure VideoParams where
  /-- VREG_COUNT, default 24 (92 D39). -/
  vregCount : Nat := 24
  regHscrollHi : Nat
  regHscrollLo : Nat
  regVscroll : Nat
  regMapbase : Nat
  tilemapBlock : Nat
  gridW : Nat
  gridH : Nat
  /-- MAP_W, default GRID_W (92 D34). -/
  mapW : Nat := gridW
  /-- MAP_H, default GRID_H (92 D34). -/
  mapH : Nat := gridH
  scale : Nat
  vramSize : Nat
  vsramEntries : Nat
  vsramWidth : Nat
  /-- CHANNEL_ROUNDING, default `floor` (92 D30). -/
  channelRounding : ChannelRounding := .floor
  deriving DecidableEq, Repr

/-- The legal values of the video parameters (00_scope.md R6). MAP_W and MAP_H default to GRID_W and GRID_H
and, as a row pitch and a modulus, are at least 1 (43_tile_compositor.md R216). -/
abbrev VideoParams.legal (p : VideoParams) : Prop :=
  24 ≤ p.vregCount ∧ p.regHscrollHi < p.vregCount ∧ p.regHscrollLo < p.vregCount ∧
  p.regVscroll < p.vregCount ∧ p.regMapbase < p.vregCount ∧
  1 ≤ p.tilemapBlock ∧ 1 ≤ p.gridW ∧ 1 ≤ p.gridH ∧ 1 ≤ p.mapW ∧ 1 ≤ p.mapH ∧ 1 ≤ p.scale

/-- The parameters of a reset (00_scope.md R6, 10_state.md R38). MEM_FILL is a list of the non-zero bytes. -/
structure ResetParams where
  initSp : Long
  initD : Vector Long 8
  /-- INIT_A[0..6]; entry 7 is not used, since A7 takes INIT_SP. -/
  initA : Vector Long 8
  initSr : Word
  memFill : List Host.Cell
  minImageSize : Nat
  deriving DecidableEq, Repr

/-- TEXT_DECODE (00_scope.md R6, 70_reset_and_hazards.md R295, 92 D43): the text of a header byte 0x80 to 0xFF.
OPEN: a free value. DESIGN CHOICE (log 17): the spec gives it no shape; here it is the text that byte `k` of a
header field adds, and it may depend on all bytes of the field, so that a decoding of several bytes together is
one of its values. -/
opaque Config.textDecode (field : List Byte) (k : Nat) : List Char

end Sys2Proof
end

