-- ==== Sys2Proof/Syntax.lean ====
section
/-! DEFINITION. The instructions of SGEPY-CORE: one constructor per row of spec/opcode_table.json
(30_encoding.md R91, R92, R97), each with all of its operands, extension words among them. -/

namespace Sys2Proof

/-- The operand of a short branch (41_control.md R165): the displacement byte of the opcode word, or, under
`BRANCH_D8_ZERO = word_escape` when that byte is 0, the 16-bit displacement of one extension word. -/
inductive BranchDisp where
  | d8 (d : Byte)
  | escape (w : Word)
  deriving DecidableEq, Repr

/-- The admitted instructions. -/
inductive Instr where
  /-- NOP (41_control.md R162). -/
  | nop
  /-- RTS (41_control.md R163). -/
  | rts
  /-- JSR abs.L with its 32-bit target, two extension words (41_control.md R164). -/
  | jsr (target : Long)
  /-- BRA.S (41_control.md R166). -/
  | bra (disp : BranchDisp)
  /-- BEQ.S (41_control.md R167). -/
  | beq (disp : BranchDisp)
  /-- BNE.S, part of the machine only when `HAS_BNE = true` (41_control.md R168). -/
  | bne (disp : BranchDisp)
  /-- MOVE.W #imm,Dn with its immediate, one extension word (42_data.md R193). -/
  | moveWImm (n : RegNum) (imm : Word)
  /-- CMP.W Dy,Dx (42_data.md R194). -/
  | cmpW (x y : RegNum)
  /-- ADD.W Dy,Dx (42_data.md R195). -/
  | addW (x y : RegNum)
  deriving DecidableEq, Repr

end Sys2Proof
end

