-- ==== Sys2Proof/WellFormed.lean ====
section
/-! DEFINITION. Which instructions the machine with given parameters has (30_encoding.md R91, R97;
41_control.md R165, R168). -/

namespace Sys2Proof

/-- A branch operand is one the decoder can form: the escape word only under `word_escape`, and there a
displacement byte of 0 always brings an escape word (41_control.md R165). -/
def BranchDisp.wf (p : CoreParams) : BranchDisp → Bool
  | .d8 d => !(d == 0#8 && p.branchD8Zero == .wordEscape)
  | .escape _ => p.branchD8Zero == .wordEscape

/-- An instruction the machine has: its branch operand is one the decoder can form, and BNE.S is there only
when `HAS_BNE = true` (30_encoding.md R97). -/
def Instr.wf (p : CoreParams) : Instr → Bool
  | .nop => true
  | .rts => true
  | .jsr _ => true
  | .bra disp => disp.wf p
  | .beq disp => disp.wf p
  | .bne disp => p.hasBne && disp.wf p
  | .moveWImm _ _ => true
  | .cmpW _ _ => true
  | .addW _ _ => true

end Sys2Proof
end

