-- ==== Sys2Proof/Decode.lean ====
section
/-! DEFINITION. Decoding (30_encoding.md R90 to R102): the dispatch table, a decoder total on any bytes, the
encoder, and the assembler text. -/

namespace Sys2Proof

/-! ### Byte order and bit fields -/

/-- The big-endian word of two bytes (20_memory.md R63, 30_encoding.md R90). -/
def wordOf (hi lo : Byte) : Word := hi ++ lo

/-- The bytes of a word in address order (20_memory.md R63). -/
def wordBytes (w : Word) : List Byte := [w.extractLsb' 8 8, w.extractLsb' 0 8]

/-- `hi : lo`, a long of two words, the first in bits 31:16 (30_encoding.md R94, R95). -/
def longOf (hi lo : Word) : Long := hi ++ lo

/-- The words of a long, high word first. -/
def longWords (v : Long) : List Word := [v.extractLsb' 16 16, v.extractLsb' 0 16]

/-- A 3-bit register field of a word, its lowest bit at `lo`. -/
def regField (w : Word) (lo : Nat) : RegNum := ⟨(w.extractLsb' lo 3).toNat, (w.extractLsb' lo 3).isLt⟩

/-- A register number placed at bit `lo` of a word. -/
def regBits (r : RegNum) (lo : Nat) : Word := BitVec.ofNat 16 r.val <<< lo

/-- The displacement byte of a branch, opcode bits 7:0 (30_encoding.md R92 format BCC). -/
def d8Field (op : Word) : Byte := op.extractLsb' 0 8

/-! ### The dispatch table (30_encoding.md R97) -/

/-- The handlers of the dispatch table. -/
inductive Handler where
  | nop | rts | jsr | bra | beq | bne | moveWImm | cmpW | addW
  deriving DecidableEq, Repr

/-- One row of the dispatch table. -/
structure DispatchRow where
  mask : Word
  pattern : Word
  handler : Handler
  deriving DecidableEq, Repr

/-- Whether an opcode word matches a row: `(op & mask) == match` (30_encoding.md R96). -/
def DispatchRow.hits (r : DispatchRow) (op : Word) : Bool := op &&& r.mask == r.pattern

/-- The rows in order; row 6 is absent when `HAS_BNE = false` (30_encoding.md R97). -/
def dispatchRows (hasBne : Bool) : List DispatchRow :=
  [⟨0xFFFF#16, 0x4E71#16, .nop⟩, ⟨0xFFFF#16, 0x4E75#16, .rts⟩, ⟨0xFFFF#16, 0x4EB9#16, .jsr⟩,
   ⟨0xFF00#16, 0x6000#16, .bra⟩, ⟨0xFF00#16, 0x6700#16, .beq⟩] ++
  (if hasBne then [⟨0xFF00#16, 0x6600#16, .bne⟩] else []) ++
  [⟨0xF1FF#16, 0x303C#16, .moveWImm⟩, ⟨0xF1F8#16, 0xB040#16, .cmpW⟩, ⟨0xF1F8#16, 0xD040#16, .addW⟩]

/-- The handler of the first row an opcode word matches; none for an unknown word (30_encoding.md R96, R98). -/
def firstHit (op : Word) : List DispatchRow → Option Handler
  | [] => none
  | r :: rows => if r.hits op then some r.handler else firstHit op rows

/-- Dispatch of an opcode word by a machine with the given parameters. -/
def handlerOf (p : CoreParams) (op : Word) : Option Handler := firstHit op (dispatchRows p.hasBne)

/-- How many extension words follow an opcode word (30_encoding.md R91). -/
def extCount (p : CoreParams) (h : Handler) (op : Word) : Nat :=
  match h with
  | .nop => 0
  | .rts => 0
  | .jsr => 2
  | .bra => if d8Field op = 0#8 ∧ p.branchD8Zero = .wordEscape then 1 else 0
  | .beq => if d8Field op = 0#8 ∧ p.branchD8Zero = .wordEscape then 1 else 0
  | .bne => if d8Field op = 0#8 ∧ p.branchD8Zero = .wordEscape then 1 else 0
  | .moveWImm => 1
  | .cmpW => 0
  | .addW => 0

/-- The operand of a branch from its opcode word and its extension words (41_control.md R165). -/
def branchOperand (op : Word) : List Word → BranchDisp
  | [] => .d8 (d8Field op)
  | w :: _ => .escape w

/-- The instruction of a handler, its opcode word and its extension words (30_encoding.md R92, R95). -/
def assemble (h : Handler) (op : Word) (exts : List Word) : Instr :=
  match h with
  | .nop => .nop
  | .rts => .rts
  | .jsr => .jsr (longOf (exts.getD 0 0#16) (exts.getD 1 0#16))
  | .bra => .bra (branchOperand op exts)
  | .beq => .beq (branchOperand op exts)
  | .bne => .bne (branchOperand op exts)
  | .moveWImm => .moveWImm (regField op 9) (exts.getD 0 0#16)
  | .cmpW => .cmpW (regField op 9) (regField op 0)
  | .addW => .addW (regField op 9) (regField op 0)

/-! ### The decoder -/

/-- Why bytes are no instruction. -/
inductive DecodeError where
  /-- The opcode word matches no row: an unknown instruction (30_encoding.md R98). -/
  | unknownInstruction (op : Word)
  /-- The bytes end before the instruction does. -/
  | truncated
  deriving DecidableEq, Repr

/-- The first `k` words of a list of bytes, and the bytes after them. -/
def takeWords : Nat → List Byte → Option (List Word × List Byte)
  | 0, bytes => some ([], bytes)
  | k + 1, hi :: lo :: bytes =>
    match takeWords k bytes with
    | some (ws, rest) => some (wordOf hi lo :: ws, rest)
    | none => none
  | _ + 1, _ => none

/-- The instruction at the head of a list of bytes, and the bytes after it. -/
def decode (p : CoreParams) (bytes : List Byte) : Except DecodeError (Instr × List Byte) :=
  match bytes with
  | hi :: lo :: tail =>
    match handlerOf p (wordOf hi lo) with
    | none => .error (.unknownInstruction (wordOf hi lo))
    | some h =>
      match takeWords (extCount p h (wordOf hi lo)) tail with
      | none => .error .truncated
      | some (exts, rest) => .ok (assemble h (wordOf hi lo) exts, rest)
  | _ => .error .truncated

/-! ### The encoder -/

/-- The words of a short branch whose opcode word has the high byte of `base` (30_encoding.md R92 format BCC). -/
def encodeBranch (base : Word) : BranchDisp → List Word
  | .d8 d => [base ||| d.setWidth 16]
  | .escape w => [base, w]

/-- The words of an instruction, opcode word first (30_encoding.md R92, R100). -/
def encodeWords : Instr → List Word
  | .nop => [0x4E71#16]
  | .rts => [0x4E75#16]
  | .jsr target => 0x4EB9#16 :: longWords target
  | .bra disp => encodeBranch 0x6000#16 disp
  | .beq disp => encodeBranch 0x6700#16 disp
  | .bne disp => encodeBranch 0x6600#16 disp
  | .moveWImm n imm => [0x303C#16 ||| regBits n 9, imm]
  | .cmpW x y => [0xB040#16 ||| regBits x 9 ||| regBits y 0]
  | .addW x y => [0xD040#16 ||| regBits x 9 ||| regBits y 0]

/-- The bytes of an instruction in address order. -/
def encode (i : Instr) : List Byte := (encodeWords i).flatMap wordBytes

/-- The bytes of a branch's length (30_encoding.md R91). -/
def branchLength : BranchDisp → Nat
  | .d8 _ => 2
  | .escape _ => 4

/-- The length of an instruction in bytes (30_encoding.md R91). -/
def instrLength : Instr → Nat
  | .nop => 2
  | .rts => 2
  | .jsr _ => 6
  | .bra disp => branchLength disp
  | .beq disp => branchLength disp
  | .bne disp => branchLength disp
  | .moveWImm _ _ => 4
  | .cmpW _ _ => 2
  | .addW _ _ => 2

/-! ### The opcode table's numbering of an instruction's bits -/

/-- Word `k` of an instruction whose bits are `w` as spec/opcode_table.json numbers them (word 0 in bits 15:0),
every bit at or above `nbits` being 0. -/
def tableWord (nbits w k : Nat) : Word := BitVec.ofNat 16 ((w % 2 ^ nbits) >>> (16 * k))

/-- Those words as stored, up to the longest instruction (JSR, three words). -/
def tableBytes (nbits w : Nat) : List Byte :=
  wordBytes (tableWord nbits w 0) ++ wordBytes (tableWord nbits w 1) ++ wordBytes (tableWord nbits w 2)

/-- The parameters under which every row of the opcode table is decoded: the spec's defaults, with BNE.S
present (DESIGN CHOICE, log 7). -/
def tableParams : CoreParams := { CoreParams.default with hasBne := true }

/-- The instruction the decoder reads from an instruction's bits as the opcode table numbers them. -/
def decodeTableWord (nbits w : Nat) : Option Instr :=
  match decode tableParams (tableBytes nbits w) with
  | .ok (i, _) => some i
  | .error _ => none

/-! ### Assembler text (30_encoding.md R101; DESIGN CHOICE of the digits, log 21) -/

/-- One hexadecimal digit. -/
def hexDigit (n : Nat) : Char := "0123456789ABCDEF".toList.getD (n % 16) '0'

/-- The low `k` hexadecimal digits of a number, most significant first. -/
def hexDigits : Nat → Nat → List Char
  | 0, _ => []
  | k + 1, n => hexDigits k (n / 16) ++ [hexDigit n]

/-- A number as `0x` and `k` hexadecimal digits. -/
def hexText (k n : Nat) : List Char := "0x".toList ++ hexDigits k n

/-- `Dr`. -/
def dregText (r : RegNum) : List Char := ['D', hexDigit r.val]

/-- The displacement a branch adds to `a0 + 2` (41_control.md R165). -/
def branchOffset : BranchDisp → Long
  | .d8 d => d.signExtend 32
  | .escape w => w.signExtend 32

/-- The text of an instruction whose opcode word stands at `a0`: the forms of 30_encoding.md R101, JSR in the second
of its two. DESIGN CHOICE (log 21): a branch's label is written as its target address; and R101 gives the label
form for d8 ≠ 0 alone and no text for d8 = 0 or for a branch with an escape word, which are written here in that
same form. -/
def instrText (a0 : Long) : Instr → List Char
  | .nop => "NOP".toList
  | .rts => "RTS".toList
  | .jsr target => "JSR ".toList ++ hexText 8 target.toNat
  | .bra disp => "BRA.S ".toList ++ hexText 8 (a0 + 2#32 + branchOffset disp).toNat
  | .beq disp => "BEQ.S ".toList ++ hexText 8 (a0 + 2#32 + branchOffset disp).toNat
  | .bne disp => "BNE.S ".toList ++ hexText 8 (a0 + 2#32 + branchOffset disp).toNat
  | .moveWImm n imm => "MOVE.W #".toList ++ hexText 4 imm.toNat ++ ",".toList ++ dregText n
  | .cmpW x y => "CMP.W ".toList ++ dregText y ++ ",".toList ++ dregText x
  | .addW x y => "ADD.W ".toList ++ dregText y ++ ",".toList ++ dregText x

end Sys2Proof
end

