-- ==== Sys2Proof/Machine/Memory.lean ====
section
/-! DEFINITION. Sparse arrays in one canonical form, and AddressSpace built on them (10_state.md R28,
20_memory.md R60 to R65). The video arrays use the same sparse arrays (log 16). -/

namespace Sys2Proof.Machine

/-! ### Sparse arrays: (index, value) pairs, indices rising, no value equal to what an unlisted index reads as -/

/-- The value at an index; `z` where none is listed. -/
def sparseGet {α : Type} (z : α) : List (Nat × α) → Nat → α
  | [], _ => z
  | (k, v) :: m, a => if k = a then v else sparseGet z m a

/-- A list with a value put at the front of it, unless it is what an unlisted index reads as. -/
def sparseCons {α : Type} [DecidableEq α] (z : α) (a : Nat) (v : α) (m : List (Nat × α)) : List (Nat × α) :=
  if v = z then m else (a, v) :: m

/-- The array with one index written, in the canonical form. -/
def sparseSet {α : Type} [DecidableEq α] (z : α) : List (Nat × α) → Nat → α → List (Nat × α)
  | [], a, v => sparseCons z a v []
  | (k, w) :: m, a, v =>
    if a < k then sparseCons z a v ((k, w) :: m)
    else if a = k then sparseCons z a v m
    else (k, w) :: sparseSet z m a v

/-- The canonical form: indices strictly rising, no listed value equal to the unlisted one. -/
abbrev sparseWf {α : Type} [DecidableEq α] (z : α) (m : List (Nat × α)) : Prop :=
  m.Pairwise (fun x y => x.1 < y.1) ∧ ∀ c ∈ m, c.2 ≠ z

/-- Every listed index is below a bound. -/
abbrev sparseBelow {α : Type} (bound : Nat) (m : List (Nat × α)) : Prop := ∀ c ∈ m, c.1 < bound

/-! ### AddressSpace -/

/-- AddressSpace: the bytes that differ from the unlisted byte, by rising address. -/
abbrev Memory := List Host.Cell

/-- What an unlisted address reads as: MEM_FILL is open, and the model takes 0 (DESIGN CHOICE, unsafe, log 4).
A state whose memory lists other bytes stands for any other fill. -/
def unlistedByte : Byte := 0#8

/-- The canonical form of a memory. -/
abbrev Memory.wf (m : Memory) : Prop := sparseWf unlistedByte m

/-- `mem[a]`. -/
def memByte (m : Memory) (a : Nat) : Byte := sparseGet unlistedByte m a

/-- `mem[a] <- b`. -/
def putByte (m : Memory) (a : Nat) (b : Byte) : Memory := sparseSet unlistedByte m a b

/-- `Read16(a)`, big-endian (20_memory.md R63). -/
def read16 (m : Memory) (a : Nat) : Word := wordOf (memByte m a) (memByte m (a + 1))

/-- `Write16(a, v)` (20_memory.md R63). -/
def write16 (m : Memory) (a : Nat) (v : Word) : Memory :=
  putByte (putByte m a (v.extractLsb' 8 8)) (a + 1) (v.extractLsb' 0 8)

/-- `Read32(a)`, big-endian (20_memory.md R64). -/
def read32 (m : Memory) (a : Nat) : Long := longOf (read16 m a) (read16 m (a + 2))

/-- `Write32(a, v)` (20_memory.md R64). -/
def write32 (m : Memory) (a : Nat) (v : Long) : Memory :=
  putByte (putByte (putByte (putByte m a (v.extractLsb' 24 8)) (a + 1) (v.extractLsb' 16 8))
    (a + 2) (v.extractLsb' 8 8)) (a + 3) (v.extractLsb' 0 8)

/-- `Read8(a)`: the low byte of the word at `a` (20_memory.md R65). -/
def read8 (m : Memory) (a : Nat) : Byte := (read16 m a).extractLsb' 0 8

/-- `Write8(a, v)`: the low byte of the word at `a`, its high byte kept (20_memory.md R65). -/
def write8 (m : Memory) (a : Nat) (v : Byte) : Memory :=
  write16 m a (wordOf ((read16 m a).extractLsb' 8 8) v)

end Sys2Proof.Machine
end

