-- ==== Sys2Proof/Machine/State.lean ====
section
/-! DEFINITION. The state of SGEPY-CORE (10_state.md R20 to R39), the events it records, the reasons a step
can stop, and the state after reset. -/

namespace Sys2Proof.Machine

/-- What an AddressSpace access was for (60_exceptions.md R266). -/
inductive AccessKind where
  | fetch
  | read
  | write
  deriving DecidableEq, Repr

/-- The events that fault the core (60_exceptions.md R260). Each sets `core.faulted`, and the step's outcome
is a next state (log 8). -/
inductive FaultEvent where
  /-- Code 2: an access out of bounds, with its address, size and kind (60_exceptions.md R266). -/
  | addressError (addr : Long) (size : Size) (kind : AccessKind)
  /-- Code 3: a mode and register field that name no operand, or the write of an immediate
  (60_exceptions.md R267). -/
  | invalidAddressingMode (mode reg : RegNum)
  deriving DecidableEq, Repr

/-- `core.fault`: the event and the address of the opcode word of the step that raised it
(10_state.md R35, 60_exceptions.md R262). -/
structure FaultRecord where
  event : FaultEvent
  a0 : Long
  deriving DecidableEq, Repr

/-- The non-fatal signals of `core.log` (60_exceptions.md R260, R263). -/
inductive Signal where
  /-- Code 1: an unknown opcode word and its address. -/
  | unknownInstruction (op : Word) (a0 : Long)
  deriving DecidableEq, Repr

/-- The failures of `reset(image)`, with the image's length (60_exceptions.md R260, R280). -/
inductive LoadFailure where
  /-- Code 4. -/
  | imageTooShort (len : Nat)
  /-- Code 5. -/
  | imageTooLarge (len : Nat)
  deriving DecidableEq, Repr

/-- Video memory (10_state.md R31 to R34). Its sizes are parameters (`VideoParams`); VRAM, VSRAM and VREG are
sparse arrays whose unlisted entries are 0 (log 16). -/
structure Video where
  /-- Tile pattern store, bytes (R31). -/
  vram : List (Nat × Byte)
  /-- Colour table, 64 entries of 9 bits (R32). -/
  cram : Vector (BitVec 9) 64
  /-- Scroll table, entries of VSRAM_WIDTH bits (R33). -/
  vsram : List (Nat × Nat)
  /-- Video register bank, bytes (R34). -/
  vreg : List (Nat × Byte)
  deriving DecidableEq, Repr

/-- The state of the hardware. -/
structure State where
  /-- The machine's parameters: the model's own field, changed by no operation (log 1). -/
  params : CoreParams
  /-- Whether a successful reset has happened: the model's own field (log 10). -/
  ready : Bool
  /-- D0 to D7 (R20). -/
  d : Vector Long 8
  /-- A0 to A7, A7 the stack pointer (R21). -/
  a : Vector Long 8
  /-- The program counter (R23). -/
  pc : Long
  /-- The status value SR; Z is bit 2, every other bit is reserved (R24, R25, R26). -/
  sr : Word
  /-- AddressSpace (R28). -/
  mem : Memory
  /-- `core.faulted` (R35). -/
  faulted : Bool
  /-- `core.halted` (R35). -/
  halted : Bool
  /-- `core.fault` (R35). -/
  fault : Option FaultRecord
  /-- `core.log`, oldest first (R35). -/
  log : List Signal
  /-- Video memory (R31 to R34). -/
  video : Video
  deriving DecidableEq, Repr

/-- The reasons a step stops the machine with no next state. There is none: "`step()` never aborts the
session" (60_exceptions.md R261), and the spec's own faults are next states with `core.faulted = 1` (log 8). -/
inductive Fault : Type
  deriving DecidableEq, Repr

/-- The reasons the model refuses a step. -/
inductive Refusal where
  /-- Raised by `exec`'s arm of an instruction that has no meaning yet; safe. No arm answers so now. -/
  | notModelled (mnemonic : String)
  /-- Raised by `step` before the first successful reset, where "`step()` has no meaning (a model refuses it)"
  (92 D24, 93 I10, 70_reset_and_hazards.md R297); safe. -/
  | stepBeforeReset
  deriving DecidableEq, Repr

/-- The state right after a reset (10_state.md R38) with the spec's default parameters: `pc` is the long at
bytes 4 to 7 of a memory with nothing listed (log 6), A7 is the INIT_SP of the spec's own programs (log 3),
the registers and SR whose reset values are open are 0 (log 2), and video memory, which reset leaves alone,
is 0 (log 5). -/
def State.reset : State where
  params := CoreParams.default
  ready := true
  d := Vector.replicate 8 0#32
  a := (Vector.replicate 8 0#32).set 7 0x00FF0000#32
  pc := 0#32
  sr := 0#16
  mem := []
  faulted := false
  halted := false
  fault := none
  log := []
  video := { vram := [], cram := Vector.replicate 64 0#9, vsram := [], vreg := [] }

end Sys2Proof.Machine
end

