-- ==== Sys2Proof/Machine/Flags.lean ====
section
/-! DEFINITION. The flags and the ALU (10_state.md R24 to R26, 42_data.md R190 to R192, R196). -/

namespace Sys2Proof.Machine

/-- `SR.Z`, bit 2 of SR (10_state.md R24, R26). -/
def zFlag (s : State) : Bool := s.sr.getLsbD 2

/-- SR with its Z bit replaced; no other bit changes (42_data.md R192). -/
def srWithZ (sr : Word) (z : Bool) : Word := if z then sr ||| 0x0004#16 else sr &&& 0xFFFB#16

/-- `SetZ(r)`: Z is 1 exactly when the 16-bit result is 0 (42_data.md R192). -/
def setZ (r : Word) (s : State) : State := { s with sr := srWithZ s.sr (r == 0#16) }

/-- `Add16(a, b)` of the low words of two registers (42_data.md R190). -/
def add16 (a b : Long) : Word := a.extractLsb' 0 16 + b.extractLsb' 0 16

/-- `Sub16(a, b)` of the low words of two registers (42_data.md R191). -/
def sub16 (a b : Long) : Word := a.extractLsb' 0 16 - b.extractLsb' 0 16

end Sys2Proof.Machine
end

