-- ==== Sys2Proof/Machine/Ops.lean ====
section
/-! DEFINITION. The shared operations over registers, AddressSpace and the hidden core state
(10_state.md R20 to R23, R35; 20_memory.md R61 to R67; 30_encoding.md R93; 41_control.md R160, R161;
60_exceptions.md R262, R263). In every one `a0` is the address of the opcode word of the running step, which
a fault records (log 22). -/

namespace Sys2Proof.Machine

/-! ### Registers -/

/-- `D[r] <- v`. -/
def setD (r : RegNum) (v : Long) (s : State) : State := { s with d := s.d.set r v }

/-- `A[r] <- v`. -/
def setA (r : RegNum) (v : Long) (s : State) : State := { s with a := s.a.set r v }

/-- `pc <- v`. -/
def setPc (v : Long) (s : State) : State := { s with pc := v }

/-- AddressSpace replaced. -/
def setMem (m : Memory) (s : State) : State := { s with mem := m }

/-- The stack pointer, A7 (10_state.md R21). -/
def spReg : RegNum := 7

/-! ### Events -/

/-- `raise E(info)`: the ONE operation that takes a fault. It records the event with the opcode address in
`core.fault` and sets `core.faulted`; nothing transfers control, no status is saved and no mode changes
(60_exceptions.md R262, R270). There is no return from it but a successful reset (R271; `hostReset`). What the
step did before stays in the state, and no statement reads it (log 9). -/
def raise (e : FaultEvent) (a0 : Long) (s : State) : State :=
  { s with fault := some ⟨e, a0⟩, faulted := true }

/-- `signal E(info)`: appended to `core.log`, and the step goes on (60_exceptions.md R263). -/
def signal (g : Signal) (s : State) : State := { s with log := s.log ++ [g] }

/-- What an unknown opcode does once pc is past it: the signal, and `core.halted` under UNKNOWN_POLICY = halt
(30_encoding.md R96, 60_exceptions.md R264, R265). -/
def unknownOpcode (op : Word) (a0 : Long) (s : State) : State :=
  match s.params.unknownPolicy with
  | .continues => signal (.unknownInstruction op a0) s
  | .halt => { signal (.unknownInstruction op a0) s with halted := true }

/-! ### Accesses: an operation that either gives a value in a next state or raises a fault -/

/-- The result of an operation that may raise: a value with the state after it, or the faulted state. -/
inductive Access (α : Type) where
  | done (value : α) (s : State)
  | raised (s : State)
  deriving DecidableEq, Repr

/-- The next operation of a sequence, which a raise leaves out (00_scope.md R9). -/
def andThen {α β : Type} (x : Access α) (f : α → State → Access β) : Access β :=
  match x with
  | .done v s => f v s
  | .raised s => .raised s

/-- The end of an instruction: completed or faulted, the outcome is a next state (60_exceptions.md R261). -/
def endStep (x : Access Unit) : Host.Outcome State Fault Refusal :=
  match x with
  | .done _ s => .next s
  | .raised s => .next s

/-! ### AddressSpace accesses -/

/-- The bytes of a size (00_scope.md R10). -/
def sizeBytes : Size → Nat
  | .byte => 1
  | .word => 2
  | .long => 4

/-- The bytes an access of a size touches: `max(n, 2)` (20_memory.md R62, R65, R66). -/
def touchedBytes (n : Size) : Nat := max (sizeBytes n) 2

/-- The low `8 n` bits of a value, the others 0: `v & mask(n)` (00_scope.md R10). -/
def maskTo (n : Size) (v : Long) : Long :=
  match n with
  | .byte => (v.extractLsb' 0 8).setWidth 32
  | .word => (v.extractLsb' 0 16).setWidth 32
  | .long => v

/-- `ea & M24` (20_memory.md R61). -/
def maskAddr (ea : Long) : Long := ea &&& 0x00FFFFFF#32

/-- An access at an address is within AddressSpace (20_memory.md R62, R66). -/
def inBounds (s : State) (addr : Long) (n : Size) : Bool := addr.toNat + touchedBytes n ≤ s.params.memSize

/-- The value `MemRead` gives when the access is in bounds, zero above `8 n` bits (20_memory.md R63 to R66). -/
def readSized (m : Memory) (addr : Nat) : Size → Long
  | .byte => (read8 m addr).setWidth 32
  | .word => (read16 m addr).setWidth 32
  | .long => read32 m addr

/-- AddressSpace after `MemWrite` of the low `8 n` bits of a value, when the access is in bounds
(20_memory.md R63 to R66). -/
def writeSized (m : Memory) (addr : Nat) (v : Long) : Size → Memory
  | .byte => write8 m addr (v.extractLsb' 0 8)
  | .word => write16 m addr (v.extractLsb' 0 16)
  | .long => write32 m addr v

/-- `MemRead(addr, n)` (20_memory.md R66). -/
def memRead (a0 addr : Long) (n : Size) (s : State) : Access Long :=
  if inBounds s addr n then .done (readSized s.mem addr.toNat n) s
  else .raised (raise (.addressError addr n .read) a0 s)

/-- `MemWrite(addr, n, v)` (20_memory.md R66). -/
def memWrite (a0 addr : Long) (n : Size) (v : Long) (s : State) : Access Unit :=
  if inBounds s addr n then .done () (setMem (writeSized s.mem addr.toNat v n) s)
  else .raised (raise (.addressError addr n .write) a0 s)

/-- `Fetch16(a)` at an unmasked address (20_memory.md R67). -/
def fetch16 (a0 addr : Long) (s : State) : Access Word :=
  if inBounds s addr .word then .done (read16 s.mem addr.toNat) s
  else .raised (raise (.addressError addr .word .fetch) a0 s)

/-- `NextExt()`: the extension word at pc, pc moved past it (30_encoding.md R93). -/
def nextExt (a0 : Long) (s : State) : Access Word :=
  andThen (fetch16 a0 s.pc s) fun w s1 => .done w (setPc (s1.pc + 2#32) s1)

/-! ### The stack -/

/-- `StackPush(v)` (41_control.md R160). -/
def stackPush (a0 v : Long) (s : State) : Access Unit :=
  memWrite a0 (maskAddr (s.a[spReg] - 4#32)) .long v (setA spReg (s.a[spReg] - 4#32) s)

/-- `StackPop()` (41_control.md R161). -/
def stackPop (a0 : Long) (s : State) : Access Long :=
  memRead a0 (maskAddr s.a[spReg]) .long (setA spReg (s.a[spReg] + 4#32) s)

end Sys2Proof.Machine
end

