-- ==== Sys2Proof/Machine/Operands.lean ====
section
/-! DEFINITION. The effective-address resolver (40_effective_address.md R120 to R142): every mode, size and
direction, whether or not an admitted instruction reaches it. -/

namespace Sys2Proof.Machine

/-- A resolved operand (40_effective_address.md R120). -/
inductive Loc where
  | dataReg (r : RegNum)
  | addrReg (r : RegNum)
  /-- A memory address, already masked (R121). -/
  | mem (addr : Long)
  | imm (v : Long)
  deriving DecidableEq, Repr

/-! ### The extension words of the indexed modes (30_encoding.md R94) -/

/-- The index register's value, all 32 bits: bit 15 picks the file, bits 14:12 the register (R130). -/
def indexValue (w : Word) (s : State) : Long := if w.getLsbD 15 then s.a[regField w 12] else s.d[regField w 12]

/-- The scale, `2^w[10:9]` (R130). -/
def indexScale (w : Word) : Long := BitVec.ofNat 32 (2 ^ (w.extractLsb' 9 2).toNat)

/-- The address of an indexed mode: base + signed d8 + index * scale modulo 2^32, masked; bits 11 and 8 of the
word are ignored (R130, R134). -/
def indexedAddr (base : Long) (w : Word) (s : State) : Long :=
  maskAddr (base + (w.extractLsb' 0 8).signExtend 32 + indexValue w s * indexScale w)

/-! ### Resolve, mode by mode -/

/-- Mode 2, `(Ar)` (R126). -/
def resolveIndirect (r : RegNum) (s : State) : Access Loc := .done (.mem (maskAddr s.a[r])) s

/-- Mode 3, `(Ar)+`: the register steps by the operand size, also for A7 (R127). -/
def resolvePostInc (r : RegNum) (n : Size) (s : State) : Access Loc :=
  .done (.mem (maskAddr s.a[r])) (setA r (s.a[r] + BitVec.ofNat 32 (sizeBytes n)) s)

/-- Mode 4, `-(Ar)` (R128). -/
def resolvePreDec (r : RegNum) (n : Size) (s : State) : Access Loc :=
  .done (.mem (maskAddr (s.a[r] - BitVec.ofNat 32 (sizeBytes n))))
    (setA r (s.a[r] - BitVec.ofNat 32 (sizeBytes n)) s)

/-- Mode 5, `d16(Ar)` (R129). -/
def resolveDisp (a0 : Long) (r : RegNum) (s : State) : Access Loc :=
  andThen (nextExt a0 s) fun w s1 => .done (.mem (maskAddr (s1.a[r] + w.signExtend 32))) s1

/-- Mode 6, `d8(Ar,Xi*s)` (R130). -/
def resolveIndex (a0 : Long) (r : RegNum) (s : State) : Access Loc :=
  andThen (nextExt a0 s) fun w s1 => .done (.mem (indexedAddr s1.a[r] w s1)) s1

/-- Mode 7.0, `(xxx).W`, zero-extended (R131). -/
def resolveAbsShort (a0 : Long) (s : State) : Access Loc :=
  andThen (nextExt a0 s) fun w s1 => .done (.mem (maskAddr (w.setWidth 32))) s1

/-- Mode 7.1, `(xxx).L` (R132). -/
def resolveAbsLong (a0 : Long) (s : State) : Access Loc :=
  andThen (nextExt a0 s) fun hi s1 => andThen (nextExt a0 s1) fun lo s2 =>
    .done (.mem (maskAddr (longOf hi lo))) s2

/-- Mode 7.2, `d16(PC)`, from the pc past the extension word (R133). -/
def resolvePcDisp (a0 : Long) (s : State) : Access Loc :=
  andThen (nextExt a0 s) fun w s1 => .done (.mem (maskAddr (s1.pc + w.signExtend 32))) s1

/-- Mode 7.3, `d8(PC,Xi*s)`, from the pc past the extension word (R134). -/
def resolvePcIndex (a0 : Long) (s : State) : Access Loc :=
  andThen (nextExt a0 s) fun w s1 => .done (.mem (indexedAddr s1.pc w s1)) s1

/-- Mode 7.4, `#imm`: one word for sizes 1 and 2, whose high byte size 1 ignores, two words for size 4 (R135). -/
def resolveImm (a0 : Long) (n : Size) (s : State) : Access Loc :=
  match n with
  | .byte => andThen (nextExt a0 s) fun w s1 => .done (.imm ((w.extractLsb' 0 8).setWidth 32)) s1
  | .word => andThen (nextExt a0 s) fun w s1 => .done (.imm (w.setWidth 32)) s1
  | .long => andThen (nextExt a0 s) fun hi s1 => andThen (nextExt a0 s1) fun lo s2 =>
    .done (.imm (longOf hi lo)) s2

/-- `Resolve(7, reg, n)`; registers 5, 6 and 7 name no mode and consume no word (R131 to R136). -/
def resolveMode7 (a0 : Long) (reg : RegNum) (n : Size) (s : State) : Access Loc :=
  match reg.val with
  | 0 => resolveAbsShort a0 s
  | 1 => resolveAbsLong a0 s
  | 2 => resolvePcDisp a0 s
  | 3 => resolvePcIndex a0 s
  | 4 => resolveImm a0 n s
  | _ => .raised (raise (.invalidAddressingMode 7 reg) a0 s)

/-- `Resolve(mode, reg, n)` (R120). -/
def resolve (a0 : Long) (mode reg : RegNum) (n : Size) (s : State) : Access Loc :=
  match mode.val with
  | 0 => .done (.dataReg reg) s
  | 1 => .done (.addrReg reg) s
  | 2 => resolveIndirect reg s
  | 3 => resolvePostInc reg n s
  | 4 => resolvePreDec reg n s
  | 5 => resolveDisp a0 reg s
  | 6 => resolveIndex a0 reg s
  | _ => resolveMode7 a0 reg n s

/-! ### The read and write paths -/

/-- A data register with its low `8 n` bits replaced (R123). -/
def overwriteLow (old v : Long) : Size → Long
  | .byte => old.extractLsb' 8 24 ++ v.extractLsb' 0 8
  | .word => old.extractLsb' 16 16 ++ v.extractLsb' 0 16
  | .long => v

/-- `ReadLoc(loc, n)`: the low bits of a data register, the whole of an address register for every size, the
bytes of memory, or the immediate (R121, R122, R124, R135). -/
def readLoc (a0 : Long) (loc : Loc) (n : Size) (s : State) : Access Long :=
  match loc with
  | .dataReg r => .done (maskTo n s.d[r]) s
  | .addrReg r => .done s.a[r] s
  | .mem addr => memRead a0 addr n s
  | .imm v => .done (maskTo n v) s

/-- `WriteLoc(loc, n, v)`: a partial overwrite of a data register, the whole of an address register for every
size, the bytes of memory; an immediate has no storage (R121, R123, R125, R137). -/
def writeLoc (a0 : Long) (loc : Loc) (n : Size) (v : Long) (s : State) : Access Unit :=
  match loc with
  | .dataReg r => .done () (setD r (overwriteLow s.d[r] v n) s)
  | .addrReg r => .done () (setA r v s)
  | .mem addr => memWrite a0 addr n v s
  | .imm _ => .raised (raise (.invalidAddressingMode 7 4) a0 s)

/-- The bytes of extension words a mode consumes (R138). -/
def extBytes (mode reg : RegNum) (n : Size) : Nat :=
  match mode.val with
  | 0 => 0
  | 1 => 0
  | 2 => 0
  | 3 => 0
  | 4 => 0
  | 5 => 2
  | 6 => 2
  | _ =>
    match reg.val with
    | 0 => 2
    | 1 => 4
    | 2 => 2
    | 3 => 2
    | 4 => if n = .long then 4 else 2
    | _ => 0

end Sys2Proof.Machine
end

