-- ==== Sys2Proof/Machine/Control.lean ====
section
/-! DEFINITION. The control-transfer instructions (41_control.md R160 to R170).
Every meaning starts with pc past the last word of its instruction, as 10_state.md R23 puts it once the
extension words are consumed; the opcode address a0 is pc less the instruction's length (log 11). -/

namespace Sys2Proof.Machine

/-- NOP (R162). -/
def execNop (s : State) : Host.Outcome State Fault Refusal := .next s

/-- RTS: pop 32 bits into pc, not masked (R163). -/
def execRts (s : State) : Host.Outcome State Fault Refusal :=
  endStep (andThen (stackPop (s.pc - 2#32) s) fun t s1 => .done () (setPc t s1))

/-- JSR abs.L: push the address of the next instruction, jump to the target, not masked (R164). -/
def execJsr (target : Long) (s : State) : Host.Outcome State Fault Refusal :=
  endStep (andThen (stackPush (s.pc - 6#32) s.pc s) fun _ s1 => .done () (setPc target s1))

/-- `BranchTarget`: `a0 + 2` plus the sign-extended displacement. With an escape word pc has passed that word
too, so `a0 + 2` is pc less 2 (R165). -/
def branchTarget (disp : BranchDisp) (s : State) : Long :=
  match disp with
  | .d8 d => s.pc + d.signExtend 32
  | .escape w => s.pc - 2#32 + w.signExtend 32

/-- A branch taken on a condition; otherwise pc stays past the instruction (R166 to R168). -/
def branchIf (taken : Bool) (disp : BranchDisp) (s : State) : Host.Outcome State Fault Refusal :=
  .next (if taken then setPc (branchTarget disp s) s else s)

/-- BRA.S (R166). -/
def execBra (disp : BranchDisp) (s : State) : Host.Outcome State Fault Refusal := branchIf true disp s

/-- BEQ.S, taken when Z = 1 (R167). -/
def execBeq (disp : BranchDisp) (s : State) : Host.Outcome State Fault Refusal := branchIf (zFlag s) disp s

/-- BNE.S, taken when Z = 0 (R168). -/
def execBne (disp : BranchDisp) (s : State) : Host.Outcome State Fault Refusal := branchIf (!zFlag s) disp s

end Sys2Proof.Machine
end

