-- ==== Sys2Proof/Machine/Data.lean ====
section
/-! DEFINITION. The data movement and ALU instructions (42_data.md R190 to R196). Every meaning starts with pc
past the last word of its instruction (log 11). -/

namespace Sys2Proof.Machine

/-- MOVE.W #imm,Dn: the immediate that `Resolve(7, 4, 2)` gave is read and stored into `Resolve(0, n, 2)`, and
Z is set from it (R193). -/
def execMoveWImm (n : RegNum) (imm : Word) (s : State) : Host.Outcome State Fault Refusal :=
  endStep (andThen (readLoc (s.pc - 4#32) (.imm (imm.setWidth 32)) .word s) fun v s1 =>
    andThen (resolve (s.pc - 4#32) 0 n .word s1) fun dst s2 =>
      andThen (writeLoc (s.pc - 4#32) dst .word v s2) fun _ s3 =>
        .done () (setZ (v.extractLsb' 0 16) s3))

/-- CMP.W Dy,Dx: Z from Dx - Dy on 16 bits, no register written (R194). -/
def execCmpW (x y : RegNum) (s : State) : Host.Outcome State Fault Refusal :=
  .next (setZ (sub16 s.d[x] s.d[y]) s)

/-- ADD.W Dy,Dx: both operands read before the low word of Dx is written, Z from the sum (R195). -/
def execAddW (x y : RegNum) (s : State) : Host.Outcome State Fault Refusal :=
  .next (setZ (add16 s.d[x] s.d[y])
    (setD x (overwriteLow s.d[x] ((add16 s.d[x] s.d[y]).setWidth 32) .word) s))

end Sys2Proof.Machine
end

