-- ==== Sys2Proof/Machine/Dispatch.lean ====
section
/-! DEFINITION. The meaning of every instruction, one arm per constructor of Instr (30_encoding.md R97). -/

namespace Sys2Proof.Machine

/-- The meaning of an instruction in a state whose pc is past its last word (log 11). -/
def exec (i : Instr) (s : State) : Host.Outcome State Fault Refusal :=
  match i with
  | .nop => Sys2Proof.Machine.execNop s
  | .rts => Sys2Proof.Machine.execRts s
  | .jsr target => Sys2Proof.Machine.execJsr target s
  | .bra disp => Sys2Proof.Machine.execBra disp s
  | .beq disp => Sys2Proof.Machine.execBeq disp s
  | .bne disp => Sys2Proof.Machine.execBne disp s
  | .moveWImm n imm => Sys2Proof.Machine.execMoveWImm n imm s
  | .cmpW x y => Sys2Proof.Machine.execCmpW x y s
  | .addW x y => Sys2Proof.Machine.execAddW x y s

end Sys2Proof.Machine
end

