-- ==== Sys2Proof/Machine/Fetch.lean ====
section
/-! DEFINITION. Fetching an instruction (20_memory.md R67; 30_encoding.md R90, R91, R93, R96). -/

namespace Sys2Proof.Machine

/-- What fetching at pc gives: an instruction with pc past its last word, an unknown opcode with pc past it, or
a fault. -/
inductive Fetched where
  | instr (i : Instr) (s : State)
  | unknown (op : Word) (a0 : Long) (s : State)
  | raised (s : State)
  deriving DecidableEq, Repr

/-- `k` extension words in stream order, each by `NextExt()` (30_encoding.md R93). -/
def fetchExts (a0 : Long) : Nat → State → Access (List Word)
  | 0, s => .done [] s
  | k + 1, s =>
    andThen (nextExt a0 s) fun w s1 => andThen (fetchExts a0 k s1) fun ws s2 => .done (w :: ws) s2

/-- The opcode word at pc, pc moved past it, dispatch, and the extension words its handler consumes
(30_encoding.md R96). No admitted instruction has an effect before its last extension word is read
(20_memory.md R76, 70_reset_and_hazards.md R300), so the handler's words are read here (log 11). -/
def fetchInstr (s : State) : Fetched :=
  match fetch16 s.pc s.pc s with
  | .raised s1 => .raised s1
  | .done op s1 =>
    match handlerOf s.params op with
    | none => .unknown op s.pc (setPc (s.pc + 2#32) s1)
    | some h =>
      match fetchExts s.pc (extCount s.params h op) (setPc (s.pc + 2#32) s1) with
      | .raised s2 => .raised s2
      | .done exts s2 => .instr (assemble h op exts) s2

/-- Up to `k` words that a fetch stream starting at an address can read, ending before the first that is out of
bounds. -/
def streamWords (s : State) : Nat → Long → List Word
  | 0, _ => []
  | k + 1, addr =>
    if inBounds s addr .word then read16 s.mem addr.toNat :: streamWords s k (addr + 2#32) else []

/-- The bytes at pc that a step may fetch: as many words of the longest instruction as are in bounds. -/
def codeBytes (s : State) : List Byte := (streamWords s 3 s.pc).flatMap wordBytes

/-- A word placed in AddressSpace where a fetch at an address reads it; bytes outside AddressSpace are not
placed. -/
def placeWord (addr : Long) (w : Word) (s : State) : State :=
  if inBounds s addr .word then setMem (write16 s.mem addr.toNat w) s else s

/-- The machine that has every opcode a word needs: BNE.S present when the opcode word is 0x66xx (log 7). -/
def admitOpcode (op : Word) (s : State) : State :=
  if op.extractLsb' 8 8 = 0x66#8 then { s with params := { s.params with hasBne := true } } else s

end Sys2Proof.Machine
end

