-- ==== Sys2Proof/Machine/Step.lean ====
section
/-! DEFINITION. The step (30_encoding.md R96, 60_exceptions.md R261). -/

namespace Sys2Proof.Machine

/-- One call of `step()`. Before the first successful reset it is refused (log 10); a faulted or halted core
does nothing; otherwise one instruction runs, or one unknown opcode is signalled, or the fetch faults. -/
def step (s : State) : Host.Outcome State Fault Refusal :=
  if s.ready = false then .refused .stepBeforeReset
  else if s.faulted || s.halted then .next s
  else
    match fetchInstr s with
    | .instr i s1 => exec i s1
    | .unknown op a0 s1 => .next (unknownOpcode op a0 s1)
    | .raised s1 => .next s1

/-- An instruction's words, numbered as spec/opcode_table.json numbers its bits, stored at pc, where `step`
fetches; BNE.S is made present when the opcode word is 0x66xx (log 7). -/
def State.withFetchWord (s : State) (nbits w : Nat) : State :=
  admitOpcode (tableWord nbits w 0)
    (placeWord (s.pc + 4#32) (tableWord nbits w 2)
      (placeWord (s.pc + 2#32) (tableWord nbits w 1) (placeWord s.pc (tableWord nbits w 0) s)))

end Sys2Proof.Machine
end

