-- ==== Sys2Proof/Machine/VideoPort.lean ====
section
/-! DEFINITION. The video port: the host's reads and writes of video memory (20_memory.md R77, R78). A write
out of range changes nothing, a read out of range gives no value, and the excess bits of a written value are
dropped. -/

namespace Sys2Proof.Machine

/-- The byte an unlisted VRAM offset or video register holds (log 5, log 16). -/
def videoZero : Byte := 0#8

/-- `VRAM[o]` (10_state.md R31). -/
def vramByte (v : Video) (o : Nat) : Byte := sparseGet videoZero v.vram o

/-- `VREG[n]` (10_state.md R34). -/
def vregByte (v : Video) (n : Nat) : Byte := sparseGet videoZero v.vreg n

/-- `VSRAM[i]` (10_state.md R33). -/
def vsramEntry (v : Video) (i : Nat) : Nat := sparseGet 0 v.vsram i

/-- `CRAM[i]` (10_state.md R32); 0 for an index the table does not have, which no rule reads. -/
def cramEntry (v : Video) (i : Nat) : BitVec 9 := v.cram.getD i 0#9

/-- `VramWrite(o, b)`. -/
def vramWrite (p : VideoParams) (o b : Nat) (v : Video) : Video :=
  if o < p.vramSize then { v with vram := sparseSet videoZero v.vram o (BitVec.ofNat 8 b) } else v

/-- `VramRead(o)`. -/
def vramRead (p : VideoParams) (o : Nat) (v : Video) : Option Byte :=
  if o < p.vramSize then some (vramByte v o) else none

/-- `CramWrite(i, c)`. -/
def cramWrite (i c : Nat) (v : Video) : Video :=
  if h : i < 64 then { v with cram := v.cram.set i (BitVec.ofNat 9 c) h } else v

/-- `CramRead(i)`. -/
def cramRead (i : Nat) (v : Video) : Option (BitVec 9) :=
  if i < 64 then some (cramEntry v i) else none

/-- `VsramWrite(i, e)`. -/
def vsramWrite (p : VideoParams) (i e : Nat) (v : Video) : Video :=
  if i < p.vsramEntries then { v with vsram := sparseSet 0 v.vsram i (e % 2 ^ p.vsramWidth) } else v

/-- `VsramRead(i)`. -/
def vsramRead (p : VideoParams) (i : Nat) (v : Video) : Option Nat :=
  if i < p.vsramEntries then some (vsramEntry v i) else none

/-- `VregWrite(n, b)`. -/
def vregWrite (p : VideoParams) (n b : Nat) (v : Video) : Video :=
  if n < p.vregCount then { v with vreg := sparseSet videoZero v.vreg n (BitVec.ofNat 8 b) } else v

/-- `VregRead(n)`. -/
def vregRead (p : VideoParams) (n : Nat) (v : Video) : Option Byte :=
  if n < p.vregCount then some (vregByte v n) else none

/-- Video memory whose arrays are canonical and within their sizes (10_state.md R31 to R34). -/
abbrev Video.wf (p : VideoParams) (v : Video) : Prop :=
  sparseWf videoZero v.vram ∧ sparseBelow p.vramSize v.vram ∧
  sparseWf 0 v.vsram ∧ sparseBelow p.vsramEntries v.vsram ∧ (∀ c ∈ v.vsram, c.2 < 2 ^ p.vsramWidth) ∧
  sparseWf videoZero v.vreg ∧ sparseBelow p.vregCount v.vreg

end Sys2Proof.Machine
end

