-- ==== Sys2Proof/Machine/Compositor.lean ====
section
/-! DEFINITION. The tile compositor (43_tile_compositor.md R210 to R233). It reads VREG, VRAM and CRAM, returns
a frame, writes no state and raises nothing (R210, R232). -/

namespace Sys2Proof.Machine

/-- An RGB triple of three 8-bit values (10_state.md R37). -/
structure Rgb where
  r : Byte
  g : Byte
  b : Byte
  deriving DecidableEq, Repr

/-- A frame: its rows from the top, each a row of pixels from the left, `none` an unwritten pixel
(10_state.md R37, R211; log 19). -/
abbrev Frame := List (List (Option Rgb))

/-! ### Frame buffer -/

/-- A frame in which every pixel is unwritten (R211). -/
def blankFrame (p : VideoParams) : Frame :=
  List.replicate (p.gridH * 8 * p.scale) (List.replicate (p.gridW * 8 * p.scale) none)

/-- `frame[y][x] <- c`. -/
def putPixel (y x : Nat) (c : Rgb) (f : Frame) : Frame := f.modify y (fun row => row.set x (some c))

/-- `frame[y][x]`; none also where the frame has no such pixel. -/
def pixelAt (f : Frame) (y x : Nat) : Option Rgb := (f.getD y []).getD x none

/-- The SCALE x SCALE block of a screen position (R229). -/
def putBlock (p : VideoParams) (sy sx : Nat) (c : Rgb) (f : Frame) : Frame :=
  (List.range p.scale).foldl (fun f1 j =>
    (List.range p.scale).foldl (fun f2 i => putPixel (sy * p.scale + j) (sx * p.scale + i) c f2) f1) f

/-! ### Scroll and tilemap base -/

/-- `hscroll`, 9 bits (R212). -/
def hscroll (p : VideoParams) (v : Video) : Nat :=
  (if (vregByte v p.regHscrollHi).getLsbD 0 then 256 else 0) + (vregByte v p.regHscrollLo).toNat

/-- `vscroll`, 8 bits (R213). -/
def vscroll (p : VideoParams) (v : Video) : Nat := (vregByte v p.regVscroll).toNat

/-- `mapbase` (R214). -/
def mapbase (p : VideoParams) (v : Video) : Nat :=
  ((vregByte v p.regMapbase).extractLsb' 0 7).toNat * p.tilemapBlock

/-! ### Tilemap entries (R216 to R218) -/

/-- The VRAM offset of the tilemap entry that cell `(r, c)` shows (R216, R217). -/
def entryOffset (p : VideoParams) (v : Video) (r c : Nat) : Nat :=
  mapbase p v + 2 * ((vscroll p v / 8 + r) % p.mapH * p.mapW + (hscroll p v / 8 + c) % p.mapW)

/-- The tilemap entry of a cell, big-endian; none where it lies out of range and the cell is skipped (R217). -/
def cellEntry (p : VideoParams) (v : Video) (r c : Nat) : Option Word :=
  if entryOffset p v r c + 1 ≥ p.vramSize then none
  else some (wordOf (vramByte v (entryOffset p v r c)) (vramByte v (entryOffset p v r c + 1)))

/-- The tile index, entry bits 10:0 (R218). -/
def tileIndex (e : Word) : Nat := (e.extractLsb' 0 11).toNat

/-- The horizontal flip, entry bit 11 (R218). -/
def hflip (e : Word) : Bool := e.getLsbD 11

/-- The vertical flip, entry bit 12 (R218). -/
def vflip (e : Word) : Bool := e.getLsbD 12

/-- The palette row, entry bits 15:13 (R218). -/
def paletteRow (e : Word) : Nat := (e.extractLsb' 13 3).toNat

/-! ### Patterns (R219 to R221) -/

/-- The four plane bytes of a pixel row. -/
structure Planes where
  p0 : Byte
  p1 : Byte
  p2 : Byte
  p3 : Byte
  deriving DecidableEq, Repr

/-- Pixel row `y` of tile `t`; none where it lies out of range and the row is skipped (R219, R220). -/
def patternRow (p : VideoParams) (v : Video) (t y : Nat) : Option Planes :=
  if 32 * t + 2 * y + 17 ≥ p.vramSize then none
  else some ⟨vramByte v (32 * t + 2 * y), vramByte v (32 * t + 2 * y + 1),
    vramByte v (32 * t + 2 * y + 16), vramByte v (32 * t + 2 * y + 17)⟩

/-- The colour index of pixel column `x`, leftmost 0, plane 0 in bit 0 (R221). -/
def colourIndex (q : Planes) (x : Nat) : Nat :=
  (q.p3.getLsbD (7 - x)).toNat * 8 + (q.p2.getLsbD (7 - x)).toNat * 4 +
  (q.p1.getLsbD (7 - x)).toNat * 2 + (q.p0.getLsbD (7 - x)).toNat

/-! ### Colours (R222 to R225) -/

/-- A channel value of a field in `0 .. top`, scaled to `0 .. 255` (R225). -/
def scaleChannel (rounding : ChannelRounding) (field top : Nat) : Byte :=
  match rounding with
  | .floor => BitVec.ofNat 8 (field * 255 / top)
  | .nearest => BitVec.ofNat 8 ((field * 255 + top / 2) / top)

/-- The colour of a packed entry: red bits 2:0, green bits 5:3, blue bits 7:6, bit 8 ignored (R224, R225). -/
def decodeColour (rounding : ChannelRounding) (c9 : BitVec 9) : Rgb where
  r := scaleChannel rounding (c9.extractLsb' 0 3).toNat 7
  g := scaleChannel rounding (c9.extractLsb' 3 3).toNat 7
  b := scaleChannel rounding (c9.extractLsb' 6 2).toNat 3

/-- The colour of a colour index in a palette row; none for index 0, which is transparent (R222), and for rows
4 to 7, which select no entry (R223). -/
def pixelColour (p : VideoParams) (v : Video) (row ci : Nat) : Option Rgb :=
  if ci = 0 then none
  else if row ≥ 4 then none
  else some (decodeColour p.channelRounding (cramEntry v (16 * row + ci)))

/-! ### Placement (R226 to R229) -/

/-- A column or row mirrored within the tile when its flip is set (R226). -/
def flipped (flip : Bool) (x : Nat) : Nat := if flip then 7 - x else x

/-- A pixel placed at a screen position, clipped to the grid, and scaled (R228, R229). -/
def placePixel (p : VideoParams) (sy sx : Int) (c : Rgb) (f : Frame) : Frame :=
  if sx < 0 ∨ sx ≥ 8 * p.gridW ∨ sy < 0 ∨ sy ≥ 8 * p.gridH then f
  else putBlock p sy.toNat sx.toNat c f

/-- Pattern pixel `(y, x)` of cell `(r, c)`, of a row of planes and a tilemap entry (R221 to R229). -/
def drawPixel (p : VideoParams) (v : Video) (e : Word) (q : Planes) (r c y x : Nat) (f : Frame) : Frame :=
  match pixelColour p v (paletteRow e) (colourIndex q x) with
  | none => f
  | some colour =>
    placePixel p (8 * (r : Int) + flipped (vflip e) y - (vscroll p v % 8 : Nat))
      (8 * (c : Int) + flipped (hflip e) x - (hscroll p v % 8 : Nat)) colour f

/-- Pattern row `y` of cell `(r, c)` (R220). -/
def drawRow (p : VideoParams) (v : Video) (e : Word) (r c y : Nat) (f : Frame) : Frame :=
  match patternRow p v (tileIndex e) y with
  | none => f
  | some q => (List.range 8).foldl (fun f1 x => drawPixel p v e q r c y x f1) f

/-- Cell `(r, c)` (R217). -/
def drawCell (p : VideoParams) (v : Video) (r c : Nat) (f : Frame) : Frame :=
  match cellEntry p v r c with
  | none => f
  | some e => (List.range 8).foldl (fun f1 y => drawRow p v e r c y f1) f

/-- `renderFrame()`: the GRID_H + 1 rows of GRID_W + 1 cells, r outer and c inner, on a fresh frame
(R211, R216, R233). -/
def renderFrame (p : VideoParams) (v : Video) : Frame :=
  (List.range (p.gridH + 1)).foldl (fun f1 r =>
    (List.range (p.gridW + 1)).foldl (fun f2 c => drawCell p v r c f2) f1) (blankFrame p)

/-! ### The frame pixel by pixel (R230): the handier form of `renderFrame`, which no other rule uses -/

/-- The colour of a screen position: the one cell, pattern row and pattern column that land on it, and the
colour they give, if any (R230). -/
def screenPixel (p : VideoParams) (v : Video) (sy sx : Nat) : Option Rgb :=
  match cellEntry p v ((sy + vscroll p v % 8) / 8) ((sx + hscroll p v % 8) / 8) with
  | none => none
  | some e =>
    match patternRow p v (tileIndex e) (flipped (vflip e) ((sy + vscroll p v % 8) % 8)) with
    | none => none
    | some q =>
      pixelColour p v (paletteRow e) (colourIndex q (flipped (hflip e) ((sx + hscroll p v % 8) % 8)))

end Sys2Proof.Machine
end

