-- ==== Sys2Proof/Machine/Session.lean ====
section
/-! DEFINITION. Session creation, reset and the header strings (70_reset_and_hazards.md R290 to R297). -/

namespace Sys2Proof

/-- The legal values of the reset parameters for a memory size (00_scope.md R6). -/
abbrev ResetParams.legal (memSize : Nat) (r : ResetParams) : Prop :=
  r.initSp.toNat % 2 = 0 ∧ 4 ≤ r.initSp.toNat ∧ r.initSp.toNat ≤ memSize ∧
  8 ≤ r.minImageSize ∧ r.minImageSize ≤ memSize ∧
  Machine.Memory.wf r.memFill ∧ Machine.sparseBelow memSize r.memFill

/-- The reset parameters of `State.reset` (log 2, log 3, log 4), with the smallest legal MIN_IMAGE_SIZE. -/
def ResetParams.chosen : ResetParams where
  initSp := 0x00FF0000#32
  initD := Vector.replicate 8 0#32
  initA := Vector.replicate 8 0#32
  initSr := 0#16
  memFill := []
  minImageSize := 8

end Sys2Proof

namespace Sys2Proof.Machine

/-- Session creation: the processor, AddressSpace and video memory of one session. Every processor value is
unspecified and comes from an arbitrary earlier state; no reset has happened; video memory holds INIT_VIDEO
(10_state.md R39, R290; log 20). -/
def createSession (p : CoreParams) (initVideo : Video) (unspecified : State) : State :=
  { unspecified with params := p, ready := false, video := initVideo }

/-- The image copied verbatim from an address on (R291). -/
def loadFrom : Nat → List Byte → Memory → Memory
  | _, [], m => m
  | a, b :: image, m => loadFrom (a + 1) image (putByte m a b)

/-- `image[4] : image[5] : image[6] : image[7]` (R291). -/
def headerPc (image : List Byte) : Long :=
  longOf (wordOf (image.getD 4 0#8) (image.getD 5 0#8)) (wordOf (image.getD 6 0#8) (image.getD 7 0#8))

/-- The state after a successful reset (R291, 10_state.md R38). -/
def afterReset (r : ResetParams) (image : List Byte) (s : State) : State :=
  { s with
    ready := true
    d := r.initD
    a := r.initA.set spReg r.initSp
    pc := headerPc image
    sr := r.initSr
    mem := loadFrom 0 image r.memFill
    faulted := false
    halted := false
    fault := none
    log := [] }

/-- `reset(image)`: the state after it and the failure returned to the caller, if any. A failed reset changes
nothing (R291, R292). -/
def hostReset (r : ResetParams) (image : List Byte) (s : State) : State × Option LoadFailure :=
  if image.length < r.minImageSize then (s, some (.imageTooShort image.length))
  else if image.length > s.params.memSize then (s, some (.imageTooLarge image.length))
  else (afterReset r image s, none)

/-! ### Event codes (60_exceptions.md R260) -/

/-- The code of a fault. -/
def faultCode : FaultEvent → Nat
  | .addressError _ _ _ => 2
  | .invalidAddressingMode _ _ => 3

/-- The code of a signal. -/
def signalCode : Signal → Nat
  | .unknownInstruction _ _ => 1

/-- The code of a load failure. -/
def loadFailureCode : LoadFailure → Nat
  | .imageTooShort _ => 4
  | .imageTooLarge _ => 5

/-! ### Header strings (R295; text as lists of characters, log 17) -/

/-- The ASCII white space that `trim` removes: space, tab, line feed, vertical tab, form feed, carriage return. -/
def isBlank (c : Char) : Bool :=
  c.toNat == 0x20 || c.toNat == 0x09 || c.toNat == 0x0A || c.toNat == 0x0B || c.toNat == 0x0C || c.toNat == 0x0D

/-- `trim`: white space removed at both ends. -/
def trim (t : List Char) : List Char := ((t.dropWhile isBlank).reverse.dropWhile isBlank).reverse

/-- The text that byte `k` of a header field, `b`, adds: an ASCII byte its character, 0x80 to 0xFF what TEXT_DECODE
gives it in this field. That an ASCII byte stands for itself beside bytes 0x80 to 0xFF too is DEDUCED (log 17). -/
def charText (field : List Byte) (b : Byte) (k : Nat) : List Char :=
  if b.toNat < 0x80 then [Char.ofNat b.toNat] else Config.textDecode field k

/-- `ascii`: the text of a header field. -/
def fieldText (field : List Byte) : List Char := field.zipIdx.flatMap (fun bk => charText field bk.1 bk.2)

/-- `RegionName`. -/
def regionName (code : List Char) : List Char :=
  if code = "J".toList then "Japan".toList
  else if code = "U".toList then "USA".toList
  else if code = "E".toList then "Europe".toList
  else if code = "JU".toList then "USA + Japan".toList
  else if code = "UE".toList then "USA + Europe".toList
  else code

/-- The bytes `mem[lo .. min(hi, L) - 1]` of a memory that an image of length L was loaded into. -/
def headerBytes (lo hi L : Nat) (m : Memory) : List Byte :=
  (List.range (min hi L - lo)).map (fun k => memByte m (lo + k))

/-- The program title. -/
def headerTitle (L : Nat) (s : State) : List Char := trim (fieldText (headerBytes 0x120 0x150 L s.mem))

/-- The region. -/
def headerRegion (L : Nat) (s : State) : List Char :=
  regionName (trim (fieldText (headerBytes 0x1F0 0x1F4 L s.mem)))

end Sys2Proof.Machine
end

