-- ==== Sys2Proof/Machine/HostPort.lean ====
section
/-! DEFINITION. What the host does between steps: the video port on a state, debug reads, the frame tick
(20_memory.md R74, R77; 60_exceptions.md R276; 70_reset_and_hazards.md R298). Each is a function of a whole
state, so it lands between steps and outside a render (92 D59; log 13). Pause is making no call. -/

namespace Sys2Proof.Machine

/-- A video-port write by the host: it changes video memory and nothing else. -/
def onVideo (write : Video → Video) (s : State) : State := { s with video := write s.video }

/-- The raw register values the debug port gives (60_exceptions.md R276). -/
structure DebugRegisters where
  d : Vector Long 8
  a : Vector Long 8
  pc : Long
  sr : Word
  deriving DecidableEq, Repr

/-- Every register, raw, with no side effect (R276). -/
def debugRegisters (s : State) : DebugRegisters := ⟨s.d, s.a, s.pc, s.sr⟩

/-- `DebugRead(a, k)`: raw bytes, truncated at MEM_SIZE, not through the size-1 lane rule (R276). -/
def debugRead (a k : Nat) (s : State) : List Byte :=
  (List.range (min k (s.params.memSize - a))).map (fun j => memByte s.mem (a + j))

/-- The hidden core state as the debug port gives it (R276). -/
structure DebugCore where
  faulted : Bool
  halted : Bool
  fault : Option FaultRecord
  log : List Signal
  deriving DecidableEq, Repr

/-- `core.faulted`, `core.halted`, `core.fault` and `core.log` (R276). -/
def debugCore (s : State) : DebugCore := ⟨s.faulted, s.halted, s.fault, s.log⟩

/-- `core.log` emptied by the host (60_exceptions.md R263, R276). -/
def emptyLog (s : State) : State := { s with log := [] }

/-- `k` steps in a row; a faulted or halted core does nothing in each (R298). -/
def runSteps : Nat → State → Host.Outcome State Fault Refusal
  | 0, s => .next s
  | k + 1, s =>
    match step s with
    | .next s1 => runSteps k s1
    | .fault f => .fault f
    | .refused r => .refused r

/-- One frame tick: STEPS_PER_FRAME steps, then one render, whose frame goes to the presentation
collaborator (R298). -/
def frameTick (p : VideoParams) (stepsPerFrame : Nat) (s : State) :
    Host.Outcome (State × Frame) Fault Refusal :=
  match runSteps stepsPerFrame s with
  | .next s1 => .next (s1, renderFrame p s1.video)
  | .fault f => .fault f
  | .refused r => .refused r

end Sys2Proof.Machine
end

