-- ==== Sys2Proof/Safety.lean ====
section
/-! DEFINITION. What claims are stated with: a running core, the end of a run, a failed run, and the invariant
of the machine. -/

namespace Sys2Proof.Machine

/-- A core whose next step runs an instruction: reset has happened, and it is neither faulted nor halted
(30_encoding.md R96, 70_reset_and_hazards.md R297). -/
abbrev Running (s : State) : Prop := s.ready = true ∧ s.faulted = false ∧ s.halted = false

/-- A core that a fault or an unknown opcode under UNKNOWN_POLICY = halt has stopped (10_state.md R35). -/
abbrev Stopped (s : State) : Prop := s.faulted = true ∨ s.halted = true

/-- `Fetch16` at an address finds the word `w` (20_memory.md R67). -/
abbrev WordAt (s : State) (addr : Long) (w : Word) : Prop :=
  addr.toNat + 1 < s.params.memSize ∧ read16 s.mem addr.toNat = w

/-- `Fetch16` at an address finds no word in AddressSpace (20_memory.md R67). -/
abbrev NoWordAt (s : State) (addr : Long) : Prop := s.params.memSize ≤ addr.toNat + 1

/-- The core is faulted by an event of the step whose opcode word stands at `a0` (60_exceptions.md R262). -/
abbrev FaultedBy (t : State) (e : FaultEvent) (a0 : Long) : Prop := t.faulted = true ∧ t.fault = some ⟨e, a0⟩

/-- The word of `BRA.S *` (70_reset_and_hazards.md R303). -/
def idleWord : Word := 0x60FE#16

/-- The end of a run (70_reset_and_hazards.md R303). It does not say that the hardware stops. -/
abbrev AtEnd (s : State) : Prop :=
  s.faulted = true ∨ s.halted = true ∨ WordAt s s.pc idleWord

/-- A run that ended in a fault is a failed run (70_reset_and_hazards.md R303). -/
abbrev FailedRun (s : State) : Prop := s.faulted = true

/-- ASCII white space in a header string (70_reset_and_hazards.md R295): space, and tab to carriage return. -/
abbrev HeaderBlank (c : Char) : Prop := c.toNat = 0x20 ∨ (0x09 ≤ c.toNat ∧ c.toNat ≤ 0x0D)

/-- `t` is the trimmed text of the bytes `lo` to `min hi L - 1` (70_reset_and_hazards.md R295): white space, `t` and
white space make up the text of those bytes, and `t` neither begins nor ends with white space. An ASCII byte's text
is its character; a byte 0x80 to 0xFF may have any text (TEXT_DECODE is OPEN, log 17). -/
def TrimmedField (s : State) (lo hi L : Nat) (t : List Char) : Prop :=
  ∃ (text : Nat → List Char) (before after : List Char),
    (∀ a, lo ≤ a → a < min hi L → (memByte s.mem a).toNat < 0x80 → text a = [Char.ofNat (memByte s.mem a).toNat]) ∧
    before ++ t ++ after = (List.range' lo (min hi L - lo)).flatMap text ∧
    (∀ c ∈ before ++ after, HeaderBlank c) ∧
    ∀ c, t.head? = some c ∨ t.getLast? = some c → ¬HeaderBlank c

/-- The invariant every step keeps: AddressSpace is in its canonical form and within MEM_SIZE, there is a fault
record exactly when the core is faulted (10_state.md R35), and only UNKNOWN_POLICY = halt halts it
(60_exceptions.md R265). -/
structure State.Inv (s : State) : Prop where
  mem_wf : Memory.wf s.mem
  mem_below : sparseBelow s.params.memSize s.mem
  fault_iff : s.faulted = s.fault.isSome
  halt_policy : s.halted = true → s.params.unknownPolicy = .halt

end Sys2Proof.Machine
end

