-- ==== Sys2Proof/Certificates/Slice0/Obligations.lean ====
section
/-! DEFINITION. The statements for the provers, each a proposition about the model that a rule of spec/ asks of
it. No statement reads any state but `core.fault` and `core.faulted` after a fault (60_exceptions.md R262),
but for the model's own invariant of its representation. -/

open Sys2Proof Sys2Proof.Machine

/-! ### Encoding -/

/-- 30_encoding.md R90 to R95: decoding the bytes of any instruction the machine has gives it back, with every
operand, and leaves the bytes after it. -/
def Obligations.DecodeOfEncodeIsTheInstruction : Prop :=
  ∀ (p : CoreParams) (i : Instr) (rest : List Byte),
    i.wf p = true → decode p (encode i ++ rest) = .ok (i, rest)

/-- 30_encoding.md R90 to R97: what decodes is an instruction the machine has, and the bytes are its encoding:
each word has one meaning. -/
def Obligations.DecodedBytesAreTheEncoding : Prop :=
  ∀ (p : CoreParams) (bytes rest : List Byte) (i : Instr),
    decode p bytes = .ok (i, rest) → i.wf p = true ∧ bytes = encode i ++ rest

/-- 30_encoding.md R97, 95_test_vectors.md L2.3 to L2.5: words of the spec decode to the instructions they stand
for, and BNE.S only when it is present. -/
def Obligations.SpecWordsDecode : Prop :=
  decode CoreParams.default [0x4E#8, 0x71#8] = .ok (.nop, []) ∧
  decode CoreParams.default [0x4E#8, 0xB9#8, 0x00#8, 0xFF#8, 0x20#8, 0x10#8] = .ok (.jsr 0x00FF2010#32, []) ∧
  decode CoreParams.default [0x67#8, 0x06#8] = .ok (.beq (.d8 0x06#8), []) ∧
  decode CoreParams.default [0x3E#8, 0x3C#8, 0x12#8, 0x34#8] = .ok (.moveWImm 7 0x1234#16, []) ∧
  decode CoreParams.default [0xBA#8, 0x47#8] = .ok (.cmpW 5 7, []) ∧
  decode CoreParams.default [0xDC#8, 0x47#8] = .ok (.addW 6 7, []) ∧
  decode CoreParams.default [0x66#8, 0xFC#8] = .error (.unknownInstruction 0x66FC#16) ∧
  decode { CoreParams.default with hasBne := true } [0x66#8, 0xFC#8] = .ok (.bne (.d8 0xFC#8), []) ∧
  decode { CoreParams.default with branchD8Zero := .wordEscape } [0x60#8, 0x00#8, 0xFF#8, 0xFE#8] =
    .ok (.bra (.escape 0xFFFE#16), [])

/-- 30_encoding.md R97: "No word matches two rows". -/
def Obligations.NoWordMatchesTwoRows : Prop :=
  ∀ (hasBne : Bool) (op : Word) (r₁ r₂ : DispatchRow),
    r₁ ∈ dispatchRows hasBne → r₂ ∈ dispatchRows hasBne → r₁.hits op = true → r₂.hits op = true → r₁ = r₂

/-- 30_encoding.md R100: the opcode map, word by word; every other word is unknown. -/
def Obligations.OpcodeMapByNibble : Prop :=
  ∀ (p : CoreParams) (op : Word),
    (handlerOf p op = some .nop ↔ op = 0x4E71#16) ∧
    (handlerOf p op = some .rts ↔ op = 0x4E75#16) ∧
    (handlerOf p op = some .jsr ↔ op = 0x4EB9#16) ∧
    (handlerOf p op = some .bra ↔ ∃ d : Byte, op.toNat = 0x6000 + d.toNat) ∧
    (handlerOf p op = some .beq ↔ ∃ d : Byte, op.toNat = 0x6700 + d.toNat) ∧
    (handlerOf p op = some .bne ↔ p.hasBne = true ∧ ∃ d : Byte, op.toNat = 0x6600 + d.toNat) ∧
    (handlerOf p op = some .moveWImm ↔ ∃ n : RegNum, op.toNat = 0x303C + 0x200 * n.val) ∧
    (handlerOf p op = some .cmpW ↔ ∃ x y : RegNum, op.toNat = 0xB040 + 0x200 * x.val + y.val) ∧
    (handlerOf p op = some .addW ↔ ∃ x y : RegNum, op.toNat = 0xD040 + 0x200 * x.val + y.val) ∧
    (handlerOf p op = none ↔
      op ≠ 0x4E71#16 ∧ op ≠ 0x4E75#16 ∧ op ≠ 0x4EB9#16 ∧
      (∀ d : Byte, op.toNat ≠ 0x6000 + d.toNat ∧ op.toNat ≠ 0x6700 + d.toNat) ∧
      (p.hasBne = true → ∀ d : Byte, op.toNat ≠ 0x6600 + d.toNat) ∧
      (∀ n : RegNum, op.toNat ≠ 0x303C + 0x200 * n.val) ∧
      (∀ x y : RegNum, op.toNat ≠ 0xB040 + 0x200 * x.val + y.val ∧
        op.toNat ≠ 0xD040 + 0x200 * x.val + y.val))

/-! ### AddressSpace -/

/-- 20_memory.md R63: 16-bit accesses are big-endian, and a write changes its two bytes only. -/
def Obligations.WordAccessIsBigEndian : Prop :=
  ∀ (m : Memory) (a : Nat) (v : Word), Memory.wf m →
    (read16 m a).toNat = (memByte m a).toNat * 256 + (memByte m (a + 1)).toNat ∧
    (memByte (write16 m a v) a).toNat = v.toNat / 256 ∧
    (memByte (write16 m a v) (a + 1)).toNat = v.toNat % 256 ∧
    ∀ x, x ≠ a → x ≠ a + 1 → memByte (write16 m a v) x = memByte m x

/-- 20_memory.md R64: 32-bit accesses are big-endian, and a write changes its four bytes only. -/
def Obligations.LongAccessIsBigEndian : Prop :=
  ∀ (m : Memory) (a : Nat) (v : Long), Memory.wf m →
    (read32 m a).toNat = (memByte m a).toNat * 2 ^ 24 + (memByte m (a + 1)).toNat * 2 ^ 16 +
      (memByte m (a + 2)).toNat * 2 ^ 8 + (memByte m (a + 3)).toNat ∧
    (memByte (write32 m a v) a).toNat = v.toNat / 2 ^ 24 ∧
    (memByte (write32 m a v) (a + 1)).toNat = v.toNat / 2 ^ 16 % 256 ∧
    (memByte (write32 m a v) (a + 2)).toNat = v.toNat / 2 ^ 8 % 256 ∧
    (memByte (write32 m a v) (a + 3)).toNat = v.toNat % 256 ∧
    ∀ x, x < a ∨ a + 4 ≤ x → memByte (write32 m a v) x = memByte m x

/-- 20_memory.md R65, R66: an access whose bytes are all below MEM_SIZE reads or writes them (a size-1 access
the low byte of the word at its address); any other raises AddressError. -/
def Obligations.AccessReadsAndWritesInBounds : Prop :=
  ∀ (a0 addr v : Long) (s : State), Memory.wf s.mem →
    (addr.toNat + 1 < s.params.memSize →
      memRead a0 addr .byte s = .done ((memByte s.mem (addr.toNat + 1)).setWidth 32) s ∧
      (∃ m, memWrite a0 addr .byte v s = .done () { s with mem := m } ∧
        (memByte m (addr.toNat + 1)).toNat = v.toNat % 256 ∧
        ∀ x, x ≠ addr.toNat + 1 → memByte m x = memByte s.mem x) ∧
      memRead a0 addr .word s = .done ((read16 s.mem addr.toNat).setWidth 32) s ∧
      memWrite a0 addr .word v s = .done () { s with mem := write16 s.mem addr.toNat (v.setWidth 16) }) ∧
    (addr.toNat + 3 < s.params.memSize →
      memRead a0 addr .long s = .done (read32 s.mem addr.toNat) s ∧
      memWrite a0 addr .long v s = .done () { s with mem := write32 s.mem addr.toNat v }) ∧
    (∀ n : Size, s.params.memSize < addr.toNat + max (sizeBytes n) 2 →
      (∃ t, memRead a0 addr n s = .raised t ∧ FaultedBy t (.addressError addr n .read) a0) ∧
      (∃ t, memWrite a0 addr n v s = .raised t ∧ FaultedBy t (.addressError addr n .write) a0))

/-- 20_memory.md R69: an access of any width reads the bytes the last writes of any width left there. -/
def Obligations.MixedWidthViewOfOneByteArray : Prop :=
  ∀ (m : Memory) (a : Nat) (v : Long) (b : Byte), Memory.wf m →
    read16 (write32 m a v) a = v.extractLsb' 16 16 ∧
    read16 (write32 m a v) (a + 1) = v.extractLsb' 8 16 ∧
    read16 (write32 m a v) (a + 2) = v.extractLsb' 0 16 ∧
    read32 (write32 m a v) a = v ∧
    read16 (write8 m a b) a = memByte m a ++ b

/-! ### The resolver -/

/-- 40_effective_address.md R120, R121; 20_memory.md R70: every resolved memory address is below 2^24. -/
def Obligations.ResolvedAddressesAreMasked : Prop :=
  ∀ (a0 addr : Long) (mode reg : RegNum) (n : Size) (s t : State),
    resolve a0 mode reg n s = .done (.mem addr) t → addr.toNat < 2 ^ 24

/-- 40_effective_address.md R138: Resolve moves pc by the documented bytes of the mode and no more; ReadLoc and
WriteLoc never move it; modes 7.5 to 7.7 fault. -/
def Obligations.ResolveAdvancesPcByItsWords : Prop :=
  (∀ (a0 : Long) (mode reg : RegNum) (n : Size) (s t : State) (loc : Loc),
    resolve a0 mode reg n s = .done loc t →
      (t.pc = s.pc + 4#32 ∧ mode = 7 ∧ (reg = 1 ∨ (reg = 4 ∧ n = .long))) ∨
      (t.pc = s.pc + 2#32 ∧ (mode = 5 ∨ mode = 6 ∨
        (mode = 7 ∧ (reg = 0 ∨ reg = 2 ∨ reg = 3 ∨ (reg = 4 ∧ n ≠ .long))))) ∨
      (t.pc = s.pc ∧ mode.val ≤ 4)) ∧
  (∀ (a0 v : Long) (loc : Loc) (n : Size) (s t : State), readLoc a0 loc n s = .done v t → t = s) ∧
  (∀ (a0 v : Long) (loc : Loc) (n : Size) (s t : State), writeLoc a0 loc n v s = .done () t → t.pc = s.pc) ∧
  (∀ (a0 : Long) (reg : RegNum) (n : Size) (s : State), 5 ≤ reg.val →
    ∃ t, resolve a0 7 reg n s = .raised t)

/-- 40_effective_address.md R122 to R125: the register modes read and write the sized part of a data register and
the whole of an address register, and nothing else. -/
def Obligations.RegisterModesReadAndWrite : Prop :=
  ∀ (a0 v : Long) (r : RegNum) (n : Size) (s : State),
    resolve a0 0 r n s = .done (.dataReg r) s ∧
    (∃ w, readLoc a0 (.dataReg r) n s = .done w s ∧ w.toNat = s.d[r].toNat % 2 ^ (8 * sizeBytes n)) ∧
    (∃ w : Long, writeLoc a0 (.dataReg r) n v s = .done () { s with d := s.d.set r w } ∧
      w.toNat = s.d[r].toNat / 2 ^ (8 * sizeBytes n) * 2 ^ (8 * sizeBytes n) +
        v.toNat % 2 ^ (8 * sizeBytes n)) ∧
    resolve a0 1 r n s = .done (.addrReg r) s ∧
    readLoc a0 (.addrReg r) n s = .done s.a[r] s ∧
    writeLoc a0 (.addrReg r) n v s = .done () { s with a := s.a.set r v }

/-- 40_effective_address.md R126 to R128: (Ar), (Ar)+ and -(Ar), each with its one step of the register. -/
def Obligations.IndirectModesStepTheRegisterOnce : Prop :=
  ∀ (a0 : Long) (r : RegNum) (n : Size) (s : State),
    (∃ addr, resolve a0 2 r n s = .done (.mem addr) s ∧ addr.toNat = s.a[r].toNat % 2 ^ 24) ∧
    (∃ addr, resolve a0 3 r n s =
        .done (.mem addr) { s with a := s.a.set r (s.a[r] + BitVec.ofNat 32 (sizeBytes n)) } ∧
      addr.toNat = s.a[r].toNat % 2 ^ 24) ∧
    (∃ addr, resolve a0 4 r n s =
        .done (.mem addr) { s with a := s.a.set r (s.a[r] - BitVec.ofNat 32 (sizeBytes n)) } ∧
      addr.toNat = (s.a[r] - BitVec.ofNat 32 (sizeBytes n)).toNat % 2 ^ 24)

/-- 40_effective_address.md R129, R133, R142: the displacement modes, the second from the pc past its extension word;
where AddressSpace holds no word at pc, its fetch faults. -/
def Obligations.DisplacementModesAddASignedWord : Prop :=
  ∀ (a0 : Long) (r : RegNum) (n : Size) (s : State),
    (∀ w, WordAt s s.pc w →
      resolve a0 5 r n s =
        .done (.mem ((s.a[r] + w.signExtend 32) &&& 0x00FFFFFF#32)) { s with pc := s.pc + 2#32 } ∧
      resolve a0 7 2 n s =
        .done (.mem ((s.pc + 2#32 + w.signExtend 32) &&& 0x00FFFFFF#32)) { s with pc := s.pc + 2#32 }) ∧
    (NoWordAt s s.pc →
      (∃ t, resolve a0 5 r n s = .raised t ∧ FaultedBy t (.addressError s.pc .word .fetch) a0) ∧
      (∃ t, resolve a0 7 2 n s = .raised t ∧ FaultedBy t (.addressError s.pc .word .fetch) a0))

/-- 40_effective_address.md R130, R134, R142: the indexed modes, with the whole index register, its scale, the signed
displacement byte, and bits 11 and 8 of the index word ignored; where AddressSpace holds no word at pc, its fetch
faults. -/
def Obligations.IndexedModesAddAScaledRegister : Prop :=
  ∀ (a0 : Long) (r : RegNum) (n : Size) (s : State),
    (∀ (w : Word) (i : RegNum), WordAt s s.pc w → i.val = w.toNat / 2 ^ 12 % 8 →
      ∃ x : Long, x.toNat = (if w.toNat / 2 ^ 15 % 2 = 1 then s.a[i] else s.d[i]).toNat *
          2 ^ (w.toNat / 2 ^ 9 % 4) % 2 ^ 32 ∧
        resolve a0 6 r n s =
          .done (.mem ((s.a[r] + (w.setWidth 8).signExtend 32 + x) &&& 0x00FFFFFF#32))
            { s with pc := s.pc + 2#32 } ∧
        resolve a0 7 3 n s =
          .done (.mem ((s.pc + 2#32 + (w.setWidth 8).signExtend 32 + x) &&& 0x00FFFFFF#32))
            { s with pc := s.pc + 2#32 }) ∧
    (NoWordAt s s.pc →
      (∃ t, resolve a0 6 r n s = .raised t ∧ FaultedBy t (.addressError s.pc .word .fetch) a0) ∧
      (∃ t, resolve a0 7 3 n s = .raised t ∧ FaultedBy t (.addressError s.pc .word .fetch) a0))

/-- 40_effective_address.md R131, R132, R135, R142: absolute short (zero-extended), absolute long, and the immediates of
the three sizes; the fetch of the first or of the second word faults where AddressSpace does not hold it. -/
def Obligations.AbsoluteAndImmediateModes : Prop :=
  ∀ (a0 : Long) (s : State),
    (∀ hi, WordAt s s.pc hi →
      (∀ n : Size, resolve a0 7 0 n s = .done (.mem (hi.setWidth 32)) { s with pc := s.pc + 2#32 }) ∧
      resolve a0 7 4 .byte s = .done (.imm ((hi.setWidth 8).setWidth 32)) { s with pc := s.pc + 2#32 } ∧
      resolve a0 7 4 .word s = .done (.imm (hi.setWidth 32)) { s with pc := s.pc + 2#32 } ∧
      (∀ lo, WordAt s (s.pc + 2#32) lo →
        (∀ n : Size, resolve a0 7 1 n s =
          .done (.mem ((hi ++ lo) &&& 0x00FFFFFF#32)) { s with pc := s.pc + 4#32 }) ∧
        resolve a0 7 4 .long s = .done (.imm (hi ++ lo)) { s with pc := s.pc + 4#32 }) ∧
      (NoWordAt s (s.pc + 2#32) →
        (∀ n : Size, ∃ t, resolve a0 7 1 n s = .raised t ∧
          FaultedBy t (.addressError (s.pc + 2#32) .word .fetch) a0) ∧
        (∃ t, resolve a0 7 4 .long s = .raised t ∧
          FaultedBy t (.addressError (s.pc + 2#32) .word .fetch) a0))) ∧
    (NoWordAt s s.pc → ∀ n : Size,
      (∃ t, resolve a0 7 0 n s = .raised t ∧ FaultedBy t (.addressError s.pc .word .fetch) a0) ∧
      (∃ t, resolve a0 7 1 n s = .raised t ∧ FaultedBy t (.addressError s.pc .word .fetch) a0) ∧
      (∃ t, resolve a0 7 4 n s = .raised t ∧ FaultedBy t (.addressError s.pc .word .fetch) a0))

/-- 60_exceptions.md R267, 40_effective_address.md R136, R137: modes 7.5 to 7.7 and the write of an immediate raise
InvalidAddressingMode with the mode, the register field and a0; no step of an admitted instruction raises it. -/
def Obligations.InvalidAddressingModesAreRaised : Prop :=
  (∀ (a0 : Long) (reg : RegNum) (n : Size) (s : State), 5 ≤ reg.val →
    ∃ t, resolve a0 7 reg n s = .raised t ∧ FaultedBy t (.invalidAddressingMode 7 reg) a0) ∧
  (∀ (a0 v x : Long) (n : Size) (s : State),
    ∃ t, writeLoc a0 (.imm v) n x s = .raised t ∧ FaultedBy t (.invalidAddressingMode 7 4) a0) ∧
  (∀ (s t : State) (mode reg : RegNum) (a0 : Long), s.Inv → Running s → step s = .next t →
    t.fault ≠ some ⟨.invalidAddressingMode mode reg, a0⟩)

/-- 40_effective_address.md R139: an operand resolved once, read and then written consumes its words once and
steps its register once. -/
def Obligations.ReadThenWriteResolvesOnce : Prop :=
  ∀ (a0 v x : Long) (mode reg : RegNum) (n : Size) (s s₁ s₂ s₃ : State) (loc : Loc),
    resolve a0 mode reg n s = .done loc s₁ → readLoc a0 loc n s₁ = .done v s₂ →
    writeLoc a0 loc n x s₂ = .done () s₃ →
      s₃.pc = s.pc + BitVec.ofNat 32 (extBytes mode reg n) ∧
      (mode ≠ 1 → s₃.a = s₁.a) ∧
      (mode = 3 → s₃.a = s.a.set reg (s.a[reg] + BitVec.ofNat 32 (sizeBytes n))) ∧
      (mode = 4 → s₃.a = s.a.set reg (s.a[reg] - BitVec.ofNat 32 (sizeBytes n))) ∧
      (mode ≠ 1 → mode ≠ 3 → mode ≠ 4 → s₃.a = s.a)

/-- 40_effective_address.md R121 to R125, 20_memory.md R73: what WriteLoc stored, ReadLoc gives back. -/
def Obligations.ReadLocGivesWhatWriteLocStored : Prop :=
  ∀ (a0 v : Long) (loc : Loc) (n : Size) (s t : State), Memory.wf s.mem →
    writeLoc a0 loc n v s = .done () t →
      readLoc a0 loc n t = .done (match loc with
        | .addrReg _ => v
        | _ => maskTo n v) t

/-! ### The instructions: their own effect, and where they fault -/

/-- 41_control.md R162: NOP changes nothing. -/
def Obligations.NopChangesNothing : Prop := ∀ s : State, exec .nop s = .next s

/-- 41_control.md R161, R163: RTS pops the big-endian long at A7 & M24 into pc and steps A7 by 4; where the four
bytes do not fit it faults. -/
def Obligations.RtsPopsThePc : Prop :=
  ∀ s : State,
    ((maskAddr s.a[spReg]).toNat + 3 < s.params.memSize →
      ∃ t, exec .rts s = .next t ∧
        t = { s with a := s.a.set 7 (s.a[spReg] + 4#32), pc := t.pc } ∧
        t.pc.toNat = (memByte s.mem (maskAddr s.a[spReg]).toNat).toNat * 2 ^ 24 +
          (memByte s.mem ((maskAddr s.a[spReg]).toNat + 1)).toNat * 2 ^ 16 +
          (memByte s.mem ((maskAddr s.a[spReg]).toNat + 2)).toNat * 2 ^ 8 +
          (memByte s.mem ((maskAddr s.a[spReg]).toNat + 3)).toNat) ∧
    (s.params.memSize ≤ (maskAddr s.a[spReg]).toNat + 3 →
      ∃ t, exec .rts s = .next t ∧
        FaultedBy t (.addressError (maskAddr s.a[spReg]) .long .read) (s.pc - 2#32))

/-- 41_control.md R160, R164: JSR pushes the address of the next instruction at (A7 - 4) & M24 and jumps to its
unmasked target; where the four bytes do not fit it faults. -/
def Obligations.JsrPushesAndJumps : Prop :=
  ∀ (target : Long) (s : State),
    ((maskAddr (s.a[spReg] - 4#32)).toNat + 3 < s.params.memSize →
      exec (.jsr target) s = .next { s with
        a := s.a.set 7 (s.a[spReg] - 4#32)
        mem := write32 s.mem (maskAddr (s.a[spReg] - 4#32)).toNat s.pc
        pc := target }) ∧
    (s.params.memSize ≤ (maskAddr (s.a[spReg] - 4#32)).toNat + 3 →
      ∃ t, exec (.jsr target) s = .next t ∧
        FaultedBy t (.addressError (maskAddr (s.a[spReg] - 4#32)) .long .write) (s.pc - 6#32))

/-- 41_control.md R160, 20_memory.md R64: the frame of JSR on memory, byte by byte. -/
def Obligations.JsrStoresOnlyTheReturnAddress : Prop :=
  ∀ (target : Long) (s t : State), Memory.wf s.mem → s.faulted = false →
    exec (.jsr target) s = .next t → t.faulted = false →
    ∀ sp : Nat, sp = (maskAddr (s.a[spReg] - 4#32)).toNat →
      (memByte t.mem sp).toNat = s.pc.toNat / 2 ^ 24 ∧
      (memByte t.mem (sp + 1)).toNat = s.pc.toNat / 2 ^ 16 % 256 ∧
      (memByte t.mem (sp + 2)).toNat = s.pc.toNat / 2 ^ 8 % 256 ∧
      (memByte t.mem (sp + 3)).toNat = s.pc.toNat % 256 ∧
      ∀ x, x < sp ∨ sp + 4 ≤ x → memByte t.mem x = memByte s.mem x

/-- 41_control.md R164, R169: a call and then a return restores pc to the instruction after the call and A7 to its
value before it, whatever ran between if it left A7 and the pushed bytes as the call did. -/
def Obligations.CallThenReturnRestores : Prop :=
  ∀ (target : Long) (s t u : State), Memory.wf s.mem → s.faulted = false →
    exec (.jsr target) s = .next t → t.faulted = false →
    u.a[spReg] = t.a[spReg] → u.params = t.params →
    (∀ k < 4, memByte u.mem ((maskAddr t.a[spReg]).toNat + k) = memByte t.mem ((maskAddr t.a[spReg]).toNat + k)) →
      exec .rts u = .next { u with a := u.a.set 7 s.a[spReg], pc := s.pc }

/-- 41_control.md R165 to R168: the branches in a state whose pc is past the instruction (`a0 + 2`, or `a0 + 4` with
an escape word): BRA.S always goes to its target, BEQ.S when Z = 1, BNE.S when Z = 0; nothing else changes. -/
def Obligations.BranchesMoveOnlyThePc : Prop :=
  ∀ (d : Byte) (w : Word) (s : State),
    exec (.bra (.d8 d)) s = .next { s with pc := s.pc + d.signExtend 32 } ∧
    exec (.bra (.escape w)) s = .next { s with pc := s.pc - 2#32 + w.signExtend 32 } ∧
    exec (.beq (.d8 d)) s =
      .next (if s.sr.getLsbD 2 then { s with pc := s.pc + d.signExtend 32 } else s) ∧
    exec (.beq (.escape w)) s =
      .next (if s.sr.getLsbD 2 then { s with pc := s.pc - 2#32 + w.signExtend 32 } else s) ∧
    exec (.bne (.d8 d)) s =
      .next (if s.sr.getLsbD 2 then s else { s with pc := s.pc + d.signExtend 32 }) ∧
    exec (.bne (.escape w)) s =
      .next (if s.sr.getLsbD 2 then s else { s with pc := s.pc - 2#32 + w.signExtend 32 })

/-- 42_data.md R192, R193: MOVE.W replaces the low word of Dn, keeps its high word, sets Z from the immediate, and
changes no other SR bit and nothing else. -/
def Obligations.MoveWImmStoresTheWord : Prop :=
  ∀ (n : RegNum) (imm : Word) (s : State),
    ∃ (w : Long) (sr : Word),
      exec (.moveWImm n imm) s = .next { s with d := s.d.set n w, sr := sr } ∧
      w.toNat = s.d[n].toNat / 2 ^ 16 * 2 ^ 16 + imm.toNat ∧
      sr.getLsbD 2 = (imm == 0#16) ∧ ∀ k, k ≠ 2 → sr.getLsbD k = s.sr.getLsbD k

/-- 42_data.md R191, R192, R194: CMP.W sets Z exactly when the low words are equal, and changes no other SR bit and
nothing else. -/
def Obligations.CmpWSetsOnlyZ : Prop :=
  ∀ (x y : RegNum) (s : State),
    ∃ sr : Word,
      exec (.cmpW x y) s = .next { s with sr := sr } ∧
      (sr.getLsbD 2 = true ↔ s.d[x].toNat % 2 ^ 16 = s.d[y].toNat % 2 ^ 16) ∧
      ∀ k, k ≠ 2 → sr.getLsbD k = s.sr.getLsbD k

/-- 42_data.md R190, R192, R195: ADD.W writes the sum of the low words modulo 2^16 into the low word of Dx, keeps its
high word, sets Z from the sum, and changes no other SR bit and nothing else. -/
def Obligations.AddWWrapsAt16Bits : Prop :=
  ∀ (x y : RegNum) (s : State),
    ∃ (w : Long) (sr : Word),
      exec (.addW x y) s = .next { s with d := s.d.set x w, sr := sr } ∧
      w.toNat / 2 ^ 16 = s.d[x].toNat / 2 ^ 16 ∧
      w.toNat % 2 ^ 16 = (s.d[x].toNat + s.d[y].toNat) % 2 ^ 16 ∧
      (sr.getLsbD 2 = true ↔ (s.d[x].toNat + s.d[y].toNat) % 2 ^ 16 = 0) ∧
      ∀ k, k ≠ 2 → sr.getLsbD k = s.sr.getLsbD k

/-! ### The step -/

/-- 30_encoding.md R90, R96: when the bytes at pc decode to an instruction, the step is its meaning with pc past its
words. -/
def Obligations.StepRunsTheDecodedInstruction : Prop :=
  ∀ (s : State) (i : Instr) (rest : List Byte), Running s →
    decode s.params (codeBytes s) = .ok (i, rest) →
      step s = exec i { s with pc := s.pc + BitVec.ofNat 32 (encode i).length }

/-- 60_exceptions.md R264, R265; 30_encoding.md R98: an unknown word is signalled with its address, pc is past it, and
nothing else changes but `core.halted` under UNKNOWN_POLICY = halt. -/
def Obligations.UnknownWordIsSignalled : Prop :=
  ∀ (s : State) (op : Word), Running s → WordAt s s.pc op → handlerOf s.params op = none →
    step s = .next { s with
      pc := s.pc + 2#32
      log := s.log ++ [.unknownInstruction op s.pc]
      halted := s.params.unknownPolicy == .halt }

/-- 41_control.md R165, R166: BRA.S as a step, from its opcode word: the displacement byte, 0 under either reading of
BRANCH_D8_ZERO, and the escape word that is not there. -/
def Obligations.BraStepFromItsWord : Prop :=
  ∀ (s : State) (d : Byte), Running s → WordAt s s.pc (0x6000#16 ||| d.setWidth 16) →
    (d ≠ 0#8 → step s = .next { s with pc := s.pc + 2#32 + d.signExtend 32 }) ∧
    (d = 0#8 → s.params.branchD8Zero = .zeroOffset → step s = .next { s with pc := s.pc + 2#32 }) ∧
    (d = 0#8 → s.params.branchD8Zero = .wordEscape → ∀ w, WordAt s (s.pc + 2#32) w →
      step s = .next { s with pc := s.pc + 2#32 + w.signExtend 32 }) ∧
    (d = 0#8 → s.params.branchD8Zero = .wordEscape → NoWordAt s (s.pc + 2#32) →
      ∃ t, step s = .next t ∧ FaultedBy t (.addressError (s.pc + 2#32) .word .fetch) s.pc)

/-- 41_control.md R165, R167, R168: BEQ.S and BNE.S as steps, from their opcode words; the escape word is consumed
whether or not the branch is taken. -/
def Obligations.ConditionalBranchStepFromItsWord : Prop :=
  ∀ (s : State) (d : Byte) (whenZ : Bool), Running s →
    WordAt s s.pc ((if whenZ then 0x6700#16 else 0x6600#16) ||| d.setWidth 16) →
    (whenZ = true ∨ s.params.hasBne = true) →
    (d ≠ 0#8 → step s = .next { s with
      pc := if s.sr.getLsbD 2 = whenZ then s.pc + 2#32 + d.signExtend 32 else s.pc + 2#32 }) ∧
    (d = 0#8 → s.params.branchD8Zero = .zeroOffset → step s = .next { s with pc := s.pc + 2#32 }) ∧
    (d = 0#8 → s.params.branchD8Zero = .wordEscape → ∀ w, WordAt s (s.pc + 2#32) w →
      step s = .next { s with
        pc := if s.sr.getLsbD 2 = whenZ then s.pc + 2#32 + w.signExtend 32 else s.pc + 4#32 }) ∧
    (d = 0#8 → s.params.branchD8Zero = .wordEscape → NoWordAt s (s.pc + 2#32) →
      ∃ t, step s = .next t ∧ FaultedBy t (.addressError (s.pc + 2#32) .word .fetch) s.pc)

/-- 42_data.md R193, 40_effective_address.md R120, R140: a step of MOVE.W #imm,Dn is the resolver's own sequence:
source, read, destination, write, then Z. -/
def Obligations.MoveStepIsTheResolverSequence : Prop :=
  ∀ (s : State) (n : RegNum), Running s → WordAt s s.pc (0x303C#16 + BitVec.ofNat 16 (0x200 * n.val)) →
    step s = endStep
      (andThen (resolve s.pc 7 4 .word { s with pc := s.pc + 2#32 }) fun src s₁ =>
        andThen (readLoc s.pc src .word s₁) fun v s₂ =>
          andThen (resolve s.pc 0 n .word s₂) fun dst s₃ =>
            andThen (writeLoc s.pc dst .word v s₃) fun _ s₄ => .done () (setZ (v.setWidth 16) s₄))

/-- 20_memory.md R67, 60_exceptions.md R266, R268: a fetch that AddressSpace does not hold faults at the opcode word, at
MOVE's extension word, and at either of JSR's, before anything else. -/
def Obligations.FetchOutsideAddressSpaceFaults : Prop :=
  ∀ s : State, Running s →
    (NoWordAt s s.pc → ∃ t, step s = .next t ∧ FaultedBy t (.addressError s.pc .word .fetch) s.pc) ∧
    (∀ n : RegNum, WordAt s s.pc (0x303C#16 + BitVec.ofNat 16 (0x200 * n.val)) → NoWordAt s (s.pc + 2#32) →
      ∃ t, step s = .next t ∧ FaultedBy t (.addressError (s.pc + 2#32) .word .fetch) s.pc) ∧
    (WordAt s s.pc 0x4EB9#16 → NoWordAt s (s.pc + 2#32) →
      ∃ t, step s = .next t ∧ FaultedBy t (.addressError (s.pc + 2#32) .word .fetch) s.pc) ∧
    (∀ w, WordAt s s.pc 0x4EB9#16 → WordAt s (s.pc + 2#32) w → NoWordAt s (s.pc + 4#32) →
      ∃ t, step s = .next t ∧ FaultedBy t (.addressError (s.pc + 4#32) .word .fetch) s.pc)

/-- 30_encoding.md R96, 10_state.md R35: a faulted or halted core does nothing. -/
def Obligations.StoppedCoreDoesNothing : Prop :=
  ∀ s : State, s.ready = true → Stopped s → step s = .next s

/-- 70_reset_and_hazards.md R303: at the end of a run every further step leaves the state as it is, at a `BRA.S *` too. -/
def Obligations.EndOfARunIsAFixedPoint : Prop := ∀ s : State, s.ready = true → AtEnd s → step s = .next s

/-- 60_exceptions.md R261: after a reset a step always has a next state: it "never aborts the session". -/
def Obligations.StepNeverAborts : Prop := ∀ s : State, s.ready = true → ∃ t, step s = .next t

/-- 92_eei_decisions.md D24, 93 I10 (log 10): a step before the first successful reset is refused. -/
def Obligations.StepBeforeResetIsRefused : Prop :=
  ∀ s : State, s.ready = false → step s = .refused .stepBeforeReset

/-- 60_exceptions.md R262, R269: a step that faults records an event against its own opcode address. -/
def Obligations.FaultIsRecordedAgainstItsStep : Prop :=
  ∀ s t : State, Running s → step s = .next t → t.faulted = true → ∃ e, t.fault = some ⟨e, s.pc⟩

/-- 60_exceptions.md R266: an AddressError names an access that AddressSpace does not hold, of a size and kind an
admitted instruction makes; no step of an admitted instruction raises InvalidAddressingMode (R267). -/
def Obligations.StepFaultsAreAddressErrorsOutOfBounds : Prop :=
  ∀ (s t : State) (r : FaultRecord), Running s → s.fault = none → step s = .next t → t.fault = some r →
    ∃ addr n k, r.event = .addressError addr n k ∧ s.params.memSize < addr.toNat + max (sizeBytes n) 2 ∧
      ((k = .fetch ∧ n = .word) ∨ ((k = .read ∨ k = .write) ∧ n = .long ∧ addr.toNat < 2 ^ 24))

/-- The model's invariant is kept by every step: canonical AddressSpace within MEM_SIZE, a fault record exactly when
faulted, halted only under UNKNOWN_POLICY = halt (10_state.md R28, R35; 60_exceptions.md R265). -/
def Obligations.StepKeepsTheInvariant : Prop :=
  ∀ s t : State, s.Inv → step s = .next t → t.Inv

/-- 10_state.md R38: the state after reset meets the invariant (its memory is the model's choice, log 4), with no fault,
no halt and nothing logged. -/
def Obligations.ResetMeetsTheInvariant : Prop :=
  State.reset.Inv ∧ State.reset.faulted = false ∧ State.reset.halted = false ∧ State.reset.fault = none ∧
    State.reset.log = []

/-- 10_state.md R25: no step changes an SR bit other than Z. -/
def Obligations.ReservedStatusBitsNeverChange : Prop :=
  ∀ (s t : State) (k : Nat), step s = .next t → t.faulted = false → k ≠ 2 → t.sr.getLsbD k = s.sr.getLsbD k

/-- 10_state.md R22: a step writes Z only at a MOVE.W, CMP.W or ADD.W, A7 only at a JSR or RTS, no other address
register, at most one data register and only its low word, and memory only at a JSR, in the four bytes it pushes. -/
def Obligations.StepWritesOnlyWhatItsInstructionMay : Prop :=
  ∀ (s t : State) (op : Word), Memory.wf s.mem → Running s → WordAt s s.pc op → step s = .next t → t.faulted = false →
    (∀ r : RegNum, r ≠ spReg → t.a[r] = s.a[r]) ∧
    (op ≠ 0x4E75#16 → op ≠ 0x4EB9#16 → t.a = s.a) ∧
    (∀ r : RegNum, t.d[r].toNat / 2 ^ 16 = s.d[r].toNat / 2 ^ 16) ∧
    (∀ r : RegNum, t.d[r] ≠ s.d[r] →
      r.val = op.toNat / 2 ^ 9 % 8 ∧
        (handlerOf s.params op = some .moveWImm ∨ handlerOf s.params op = some .addW)) ∧
    (t.sr ≠ s.sr → handlerOf s.params op = some .moveWImm ∨ handlerOf s.params op = some .cmpW ∨
      handlerOf s.params op = some .addW) ∧
    (∀ x, memByte t.mem x ≠ memByte s.mem x → op = 0x4EB9#16 ∧
      (maskAddr (s.a[spReg] - 4#32)).toNat ≤ x ∧ x < (maskAddr (s.a[spReg] - 4#32)).toNat + 4)

/-- 10_state.md R29, R30; 60_exceptions.md R263: no step reaches video memory or the parameters, and the log grows by at
most the signal of the word at pc. -/
def Obligations.StepReachesNoVideoMemory : Prop :=
  ∀ s t : State, step s = .next t → t.faulted = false →
    t.video = s.video ∧ t.params = s.params ∧
      (t.log = s.log ∨ t.log = s.log ++ [.unknownInstruction (read16 s.mem s.pc.toNat) s.pc])

/-! ### Session and reset -/

/-- 70_reset_and_hazards.md R291, 10_state.md R38: the state after a successful reset, for every legal value of the open
reset parameters. Its `ready` field (log 10) and the canonical form of its memory (log 16) are the model's own. -/
def Obligations.ResetLoadsTheImage : Prop :=
  ∀ (r : ResetParams) (image : List Byte) (s : State), r.legal s.params.memSize →
    r.minImageSize ≤ image.length → image.length ≤ s.params.memSize →
    ∃ t, hostReset r image s = (t, none) ∧
      t.pc.toNat = (image.getD 4 0#8).toNat * 2 ^ 24 + (image.getD 5 0#8).toNat * 2 ^ 16 +
        (image.getD 6 0#8).toNat * 2 ^ 8 + (image.getD 7 0#8).toNat ∧
      (∀ k < image.length, memByte t.mem k = image.getD k 0#8) ∧
      (∀ k, image.length ≤ k → memByte t.mem k = memByte r.memFill k) ∧
      Memory.wf t.mem ∧ sparseBelow t.params.memSize t.mem ∧
      t.a[spReg] = r.initSp ∧ (∀ k : RegNum, k ≠ spReg → t.a[k] = r.initA[k]) ∧
      t.d = r.initD ∧ t.sr = r.initSr ∧
      t.faulted = false ∧ t.halted = false ∧ t.fault = none ∧ t.log = [] ∧
      t.video = s.video ∧ t.params = s.params ∧ t.ready = true

/-- 70_reset_and_hazards.md R292, 60_exceptions.md R280: a failed reset returns its failure and changes nothing. -/
def Obligations.FailedResetChangesNothing : Prop :=
  ∀ (r : ResetParams) (image : List Byte) (s : State),
    (image.length < r.minImageSize → hostReset r image s = (s, some (.imageTooShort image.length))) ∧
    (r.minImageSize ≤ image.length → s.params.memSize < image.length →
      hostReset r image s = (s, some (.imageTooLarge image.length)))

/-- 70_reset_and_hazards.md R293: after a successful reset the core runs from the unmasked, unchecked long at image bytes 4
to 7, and where that is not below MEM_SIZE - 1 its first step faults. -/
def Obligations.FirstStepAfterResetStartsAtTheHeaderPc : Prop :=
  ∀ (r : ResetParams) (image : List Byte) (s t : State), hostReset r image s = (t, none) →
    Running t ∧
      t.pc.toNat = (image.getD 4 0#8).toNat * 2 ^ 24 + (image.getD 5 0#8).toNat * 2 ^ 16 +
        (image.getD 6 0#8).toNat * 2 ^ 8 + (image.getD 7 0#8).toNat ∧
      (s.params.memSize ≤ t.pc.toNat + 1 →
        ∃ u, step t = .next u ∧ FaultedBy u (.addressError t.pc .word .fetch) t.pc)

/-- 70_reset_and_hazards.md R295: the region is the trimmed text of bytes 0x1F0 to 0x1F3, those of them the image has,
with the table's five codes named and every other text, the empty one too, passed through. -/
def Obligations.RegionNamesFollowTheTable : Prop :=
  ∀ (s : State) (L : Nat), ∃ code : List Char, TrimmedField s 0x1F0 0x1F4 L code ∧
    (code = "J".toList → headerRegion L s = "Japan".toList) ∧
    (code = "U".toList → headerRegion L s = "USA".toList) ∧
    (code = "E".toList → headerRegion L s = "Europe".toList) ∧
    (code = "JU".toList → headerRegion L s = "USA + Japan".toList) ∧
    (code = "UE".toList → headerRegion L s = "USA + Europe".toList) ∧
    (code ≠ "J".toList → code ≠ "U".toList → code ≠ "E".toList → code ≠ "JU".toList → code ≠ "UE".toList →
      headerRegion L s = code)

/-! ### Video memory and the compositor -/

/-- 20_memory.md R77, R78: each port write in range is what the port then reads at that index, cut to the entry's width,
and leaves every other index and array; out of range a write changes nothing and a read gives no value. -/
def Obligations.VideoPortReadsWhatItWrote : Prop :=
  ∀ (p : VideoParams) (v : Video) (o b x : Nat), v.wf p →
    (vramRead p x (vramWrite p o b v) =
      if x < p.vramSize then some (if x = o then BitVec.ofNat 8 b else vramByte v x) else none) ∧
    (vregRead p x (vregWrite p o b v) =
      if x < p.vregCount then some (if x = o then BitVec.ofNat 8 b else vregByte v x) else none) ∧
    (vsramRead p x (vsramWrite p o b v) =
      if x < p.vsramEntries then some (if x = o then b % 2 ^ p.vsramWidth else vsramEntry v x) else none) ∧
    (cramRead x (cramWrite o b v) =
      if x < 64 then some (if x = o then BitVec.ofNat 9 b else cramEntry v x) else none) ∧
    (p.vramSize ≤ o → vramWrite p o b v = v) ∧ (p.vregCount ≤ o → vregWrite p o b v = v) ∧
    (p.vsramEntries ≤ o → vsramWrite p o b v = v) ∧ (64 ≤ o → cramWrite o b v = v) ∧
    vramWrite p o b v = { v with vram := (vramWrite p o b v).vram } ∧
    vregWrite p o b v = { v with vreg := (vregWrite p o b v).vreg } ∧
    vsramWrite p o b v = { v with vsram := (vsramWrite p o b v).vsram } ∧
    cramWrite o b v = { v with cram := (cramWrite o b v).cram }

/-- The four port writes keep video memory in its canonical form and within its sizes (10_state.md R31 to R34). -/
def Obligations.VideoPortKeepsTheForm : Prop :=
  ∀ (p : VideoParams) (v : Video) (o b : Nat), v.wf p →
    (vramWrite p o b v).wf p ∧ (vregWrite p o b v).wf p ∧ (vsramWrite p o b v).wf p ∧ (cramWrite o b v).wf p

/-- 10_state.md R37: a frame has GRID_H * 8 * SCALE rows of GRID_W * 8 * SCALE pixels. -/
def Obligations.FrameHasTheGridsDimensions : Prop :=
  ∀ (p : VideoParams) (v : Video),
    (renderFrame p v).length = p.gridH * 8 * p.scale ∧
    ∀ row ∈ renderFrame p v, row.length = p.gridW * 8 * p.scale

/-- 43_tile_compositor.md R226 to R230, R233: every output pixel is the colour of the one cell, pattern row and column
that land on its screen position, and is unwritten where they give none. -/
def Obligations.EveryPixelComesFromOneCell : Prop :=
  ∀ (p : VideoParams) (v : Video) (y x : Nat), p.legal →
    y < p.gridH * 8 * p.scale → x < p.gridW * 8 * p.scale →
      pixelAt (renderFrame p v) y x = screenPixel p v (y / p.scale) (x / p.scale)

/-- 43_tile_compositor.md R222, R223: colour index 0 and palette rows 4 to 7 write nothing; any other pixel has the
colour of CRAM[16 p + ci]. -/
def Obligations.TransparentAndAbsentPaletteRows : Prop :=
  ∀ (p : VideoParams) (v : Video) (row ci : Nat),
    (ci = 0 → pixelColour p v row ci = none) ∧ (4 ≤ row → pixelColour p v row ci = none) ∧
    (ci ≠ 0 → row < 4 → pixelColour p v row ci = some (decodeColour p.channelRounding (cramEntry v (16 * row + ci))))

/-- 43_tile_compositor.md R224, R225: the channel fields and their scaling under either rounding. -/
def Obligations.ColoursDecodeExactly : Prop :=
  ∀ c9 : BitVec 9,
    (decodeColour .floor c9).r.toNat = c9.toNat % 8 * 255 / 7 ∧
    (decodeColour .floor c9).g.toNat = c9.toNat / 8 % 8 * 255 / 7 ∧
    (decodeColour .floor c9).b.toNat = c9.toNat / 64 % 4 * 255 / 3 ∧
    (decodeColour .nearest c9).r.toNat = (c9.toNat % 8 * 255 + 3) / 7 ∧
    (decodeColour .nearest c9).g.toNat = (c9.toNat / 8 % 8 * 255 + 3) / 7 ∧
    (decodeColour .nearest c9).b.toNat = (c9.toNat / 64 % 4 * 255 + 1) / 3

/-- 70_reset_and_hazards.md R298; 20_memory.md R74: after a reset a frame tick always completes: the steps, then the frame
of video memory as it was at the frame boundary, which no step reaches. -/
def Obligations.FrameTickRunsStepsThenRenders : Prop :=
  ∀ (p : VideoParams) (k : Nat) (s : State), s.ready = true →
    ∃ t, runSteps k s = .next t ∧ frameTick p k s = .next (t, renderFrame p s.video)

/-- 60_exceptions.md R276: a debug read gives the bytes as stored, truncated at MEM_SIZE. -/
def Obligations.DebugReadGivesStoredBytes : Prop :=
  ∀ (a k : Nat) (s : State),
    (debugRead a k s).length = min k (s.params.memSize - a) ∧
    ∀ j, j < (debugRead a k s).length → (debugRead a k s).getD j 0#8 = memByte s.mem (a + j)

/-! ### Locations in memory and immediates; the title -/

/-- 40_effective_address.md R121, R135: the location of a memory address reads and writes by MemRead and MemWrite, the
write the low 8n bits of its value; an immediate reads as its value masked to the size, and nothing changes. -/
def Obligations.MemoryAndImmediateLocations : Prop :=
  ∀ (a0 addr v : Long) (n : Size) (s : State),
    readLoc a0 (.mem addr) n s = memRead a0 addr n s ∧
    ∃ w : Long, w.toNat = v.toNat % 2 ^ (8 * sizeBytes n) ∧
      writeLoc a0 (.mem addr) n v s = memWrite a0 addr n w s ∧
      readLoc a0 (.imm v) n s = .done w s

/-- 70_reset_and_hazards.md R295: the title is the trimmed text of bytes 0x120 to 0x14F, those of them the image has. -/
def Obligations.HeaderTitleIsTheTrimmedField : Prop :=
  ∀ (s : State) (L : Nat), TrimmedField s 0x120 0x150 L (headerTitle L s)

/-- 43_tile_compositor.md R212 to R223, R226, R230: the colour of a screen position as arithmetic on the bytes of VREG and
VRAM. With EveryPixelComesFromOneCell it is what renderFrame shows there. `X` and `Y` are the position in the scrolled
grid, `e` the offset of the tilemap entry `E`, `q` that of the pattern row, `k` the bit of the pattern column. -/
def Obligations.ScreenPixelAsArithmetic : Prop :=
  ∀ (p : VideoParams) (v : Video) (sy sx hscroll vscroll mapbase X Y e : Nat),
    hscroll = (vregByte v p.regHscrollHi).toNat % 2 * 256 + (vregByte v p.regHscrollLo).toNat →
    vscroll = (vregByte v p.regVscroll).toNat →
    mapbase = (vregByte v p.regMapbase).toNat % 128 * p.tilemapBlock →
    X = sx + hscroll % 8 → Y = sy + vscroll % 8 →
    e = mapbase + 2 * ((vscroll / 8 + Y / 8) % p.mapH * p.mapW + (hscroll / 8 + X / 8) % p.mapW) →
    (p.vramSize ≤ e + 1 → screenPixel p v sy sx = none) ∧
    (e + 1 < p.vramSize → ∀ E q k : Nat,
      E = (vramByte v e).toNat * 256 + (vramByte v (e + 1)).toNat →
      q = 32 * (E % 2048) + 2 * (if E / 4096 % 2 = 1 then 7 - Y % 8 else Y % 8) →
      k = 7 - (if E / 2048 % 2 = 1 then 7 - X % 8 else X % 8) →
      (p.vramSize ≤ q + 17 → screenPixel p v sy sx = none) ∧
      (q + 17 < p.vramSize → ∀ ci : Nat,
        ci = (vramByte v (q + 17)).toNat / 2 ^ k % 2 * 8 + (vramByte v (q + 16)).toNat / 2 ^ k % 2 * 4 +
          (vramByte v (q + 1)).toNat / 2 ^ k % 2 * 2 + (vramByte v q).toNat / 2 ^ k % 2 →
        (ci = 0 → screenPixel p v sy sx = none) ∧
        (4 ≤ E / 8192 → screenPixel p v sy sx = none) ∧
        (ci ≠ 0 → E / 8192 < 4 → screenPixel p v sy sx =
          some (decodeColour p.channelRounding (cramEntry v (16 * (E / 8192) + ci))))))
end

