-- ==== Sys2Proof/Laws/Word.lean ====
section
/-! SUPPORT. The laws of byte order: words of bytes, longs of words, their parts, and their values. -/

namespace Sys2Proof

/-- The value of one bit vector followed by another. -/
theorem append_toNat {m n : Nat} (a : BitVec m) (b : BitVec n) : (a ++ b).toNat = a.toNat * 2 ^ n + b.toNat := by
  rw [BitVec.toNat_append, ← Nat.shiftLeft_add_eq_or_of_lt b.isLt, Nat.shiftLeft_eq]

theorem wordOf_toNat (hi lo : Byte) : (wordOf hi lo).toNat = hi.toNat * 256 + lo.toNat := append_toNat hi lo

theorem longOf_toNat (hi lo : Word) : (longOf hi lo).toNat = hi.toNat * 65536 + lo.toNat := append_toNat hi lo

/-- The value of a bit field. -/
theorem field_toNat {w : Nat} (v : BitVec w) (lo k : Nat) :
    (v.extractLsb' lo k).toNat = v.toNat / 2 ^ lo % 2 ^ k := by
  rw [BitVec.extractLsb'_toNat, Nat.shiftRight_eq_div_pow]

/-- The value of one bit. -/
theorem bit_toNat {w : Nat} (v : BitVec w) (k : Nat) : (v.getLsbD k).toNat = v.toNat / 2 ^ k % 2 := by
  rw [BitVec.getLsbD, Nat.toNat_testBit]

/-- One bit, as a condition. -/
theorem bit_iff {w : Nat} (v : BitVec w) (k : Nat) : v.getLsbD k = true ↔ v.toNat / 2 ^ k % 2 = 1 := by
  rw [← bit_toNat]
  cases v.getLsbD k <;> simp

/-- The parts of a word are its bytes. -/
@[simp] theorem wordOf_parts (w : Word) : wordOf (w.extractLsb' 8 8) (w.extractLsb' 0 8) = w := by
  apply BitVec.eq_of_toNat_eq
  have := w.isLt
  rw [wordOf_toNat, field_toNat, field_toNat]
  omega

@[simp] theorem wordOf_high (hi lo : Byte) : (wordOf hi lo).extractLsb' 8 8 = hi := by
  apply BitVec.eq_of_toNat_eq
  have := hi.isLt
  have := lo.isLt
  rw [field_toNat, wordOf_toNat]
  omega

@[simp] theorem wordOf_low (hi lo : Byte) : (wordOf hi lo).extractLsb' 0 8 = lo := by
  apply BitVec.eq_of_toNat_eq
  have := lo.isLt
  rw [field_toNat, wordOf_toNat]
  omega

/-- The parts of a long are its words. -/
@[simp] theorem longOf_parts (v : Long) : longOf (v.extractLsb' 16 16) (v.extractLsb' 0 16) = v := by
  apply BitVec.eq_of_toNat_eq
  have := v.isLt
  rw [longOf_toNat, field_toNat, field_toNat]
  omega

@[simp] theorem longOf_high (hi lo : Word) : (longOf hi lo).extractLsb' 16 16 = hi := by
  apply BitVec.eq_of_toNat_eq
  have := hi.isLt
  have := lo.isLt
  rw [field_toNat, longOf_toNat]
  omega

@[simp] theorem longOf_low (hi lo : Word) : (longOf hi lo).extractLsb' 0 16 = lo := by
  apply BitVec.eq_of_toNat_eq
  have := lo.isLt
  rw [field_toNat, longOf_toNat]
  omega

/-- A long of its four bytes. -/
theorem longOf_bytes (v : Long) :
    longOf (wordOf (v.extractLsb' 24 8) (v.extractLsb' 16 8)) (wordOf (v.extractLsb' 8 8) (v.extractLsb' 0 8)) = v := by
  apply BitVec.eq_of_toNat_eq
  have := v.isLt
  rw [longOf_toNat, wordOf_toNat, wordOf_toNat, field_toNat, field_toNat, field_toNat, field_toNat]
  omega

/-- The bytes of a word, read back. -/
theorem wordBytes_wordOf (hi lo : Byte) : wordBytes (wordOf hi lo) = [hi, lo] := by
  simp [wordBytes]

@[simp] theorem wordBytes_length (w : Word) : (wordBytes w).length = 2 := rfl

/-- The value of a register placed at a bit of a word. -/
theorem regBits_toNat (r : RegNum) (lo : Nat) (h : lo ≤ 13) : (regBits r lo).toNat = r.val * 2 ^ lo := by
  have hr := r.isLt
  have hp : 2 ^ lo ≤ 2 ^ 13 := Nat.pow_le_pow_right (by omega) h
  have hm : r.val * 2 ^ lo ≤ 7 * 2 ^ 13 := Nat.mul_le_mul (by omega) hp
  rw [regBits, BitVec.toNat_shiftLeft, BitVec.toNat_ofNat, Nat.shiftLeft_eq, Nat.mod_eq_of_lt (a := r.val) (by omega),
    Nat.mod_eq_of_lt (by omega)]

/-- The value of a register field. -/
theorem regField_val (w : Word) (lo : Nat) : (regField w lo).val = w.toNat / 2 ^ lo % 8 := field_toNat w lo 3

end Sys2Proof
end

