-- ==== Sys2Proof/Laws/Compositor.lean ====
section
/-! SUPPORT. The laws of the frame buffer: its dimensions kept by every drawing operation, one pixel after each
operation, and the pixel after a sequence of operations of which at most one writes it; the fields of registers, tilemap entries
and patterns as numbers. -/

namespace Sys2Proof.Machine

/-! ### Dimensions -/

/-- A frame of the grid's dimensions (10_state.md R37). -/
abbrev Frame.sized (p : VideoParams) (f : Frame) : Prop :=
  f.length = p.gridH * 8 * p.scale ∧ ∀ row ∈ f, row.length = p.gridW * 8 * p.scale

/-- A sequence of operations keeps what each of them keeps. -/
theorem foldl_keeps {α β : Type} (P : β → Prop) (g : β → α → β) (l : List α) (b : β) (h : P b)
    (hg : ∀ b a, P b → P (g b a)) : P (l.foldl g b) := by
  induction l generalizing b with
  | nil => exact h
  | cons a l ih => exact ih _ (hg b a h)

theorem blankFrame_sized (p : VideoParams) : (blankFrame p).sized p := by
  refine ⟨by simp [blankFrame], ?_⟩
  intro row h
  obtain rfl := List.eq_of_mem_replicate h
  simp

theorem putPixel_sized {p : VideoParams} (y x : Nat) (c : Rgb) {f : Frame} (h : f.sized p) :
    (putPixel y x c f).sized p := by
  refine ⟨by rw [putPixel, List.length_modify]; exact h.1, ?_⟩
  intro row hr
  obtain ⟨k, hk, rfl⟩ := List.getElem_of_mem hr
  rw [putPixel, List.length_modify] at hk
  simp only [putPixel, List.getElem_modify]
  split
  · rw [List.length_set]; exact h.2 _ (List.getElem_mem hk)
  · exact h.2 _ (List.getElem_mem hk)

theorem putBlock_sized {p : VideoParams} (sy sx : Nat) (c : Rgb) {f : Frame} (h : f.sized p) :
    (putBlock p sy sx c f).sized p :=
  foldl_keeps (Frame.sized p) _ _ _ h fun _ _ h1 =>
    foldl_keeps (Frame.sized p) _ _ _ h1 fun _ _ h2 => putPixel_sized _ _ _ h2

theorem placePixel_sized {p : VideoParams} (sy sx : Int) (c : Rgb) {f : Frame} (h : f.sized p) :
    (placePixel p sy sx c f).sized p := by
  unfold placePixel
  split
  · exact h
  · exact putBlock_sized _ _ _ h

theorem drawPixel_sized {p : VideoParams} (v : Video) (e : Word) (q : Planes) (r c y x : Nat) {f : Frame}
    (h : f.sized p) : (drawPixel p v e q r c y x f).sized p := by
  unfold drawPixel
  split
  · exact h
  · exact placePixel_sized _ _ _ h

theorem drawRow_sized {p : VideoParams} (v : Video) (e : Word) (r c y : Nat) {f : Frame} (h : f.sized p) :
    (drawRow p v e r c y f).sized p := by
  unfold drawRow
  split
  · exact h
  · exact foldl_keeps (Frame.sized p) _ _ _ h fun _ _ h1 => drawPixel_sized _ _ _ _ _ _ _ h1

theorem drawCell_sized {p : VideoParams} (v : Video) (r c : Nat) {f : Frame} (h : f.sized p) :
    (drawCell p v r c f).sized p := by
  unfold drawCell
  split
  · exact h
  · exact foldl_keeps (Frame.sized p) _ _ _ h fun _ _ h1 => drawRow_sized _ _ _ _ _ h1

/-! ### One pixel -/

theorem pixelAt_blankFrame (p : VideoParams) (y x : Nat) : pixelAt (blankFrame p) y x = none := by
  simp only [pixelAt, blankFrame, List.getD_eq_getElem?_getD, List.getElem?_replicate]
  split
  · simp only [Option.getD_some, List.getElem?_replicate]
    split <;> rfl
  · rfl

/-- A pixel after one pixel of the frame is written. -/
theorem pixelAt_putPixel {p : VideoParams} {f : Frame} (h : f.sized p) (y x : Nat) (c : Rgb) (y' x' : Nat)
    (hy : y' < p.gridH * 8 * p.scale) (hx : x' < p.gridW * 8 * p.scale) :
    pixelAt (putPixel y x c f) y' x' = if y = y' ∧ x = x' then some c else pixelAt f y' x' := by
  have hy' : y' < f.length := by rw [h.1]; exact hy
  have hx' : x' < f[y'].length := by rw [h.2 _ (List.getElem_mem hy')]; exact hx
  simp only [pixelAt, putPixel, List.getD_eq_getElem?_getD, List.getElem?_modify]
  rw [List.getElem?_eq_getElem hy']
  by_cases e : y = y'
  · subst e
    simp only [if_true, Option.map_eq_map, Option.map_some, Option.getD_some, true_and, List.getElem?_set]
    split
    · subst x
      simp [hx']
    · rfl
  · simp [e]

/-! ### A pixel after a sequence -/

/-- A pixel after a sequence of operations, of which only one may write it: `w a` is what operation `a` writes
there, if anything. -/
theorem pixelAt_foldl {α : Type} [DecidableEq α] {p : VideoParams} (g : Frame → α → Frame) (w : α → Option Rgb)
    (y x : Nat) (owner : α) (l : List α) (f : Frame) (hf : f.sized p)
    (hg : ∀ a f, f.sized p → (g f a).sized p)
    (hw : ∀ a ∈ l, ∀ f : Frame, f.sized p → pixelAt (g f a) y x = (w a).or (pixelAt f y x))
    (ho : ∀ a ∈ l, a ≠ owner → w a = none) :
    pixelAt (l.foldl g f) y x = if owner ∈ l then (w owner).or (pixelAt f y x) else pixelAt f y x := by
  induction l generalizing f with
  | nil => rfl
  | cons a l ih =>
    rw [List.foldl_cons, ih (g f a) (hg a f hf) (fun b hb => hw b (by simp [hb])) (fun b hb => ho b (by simp [hb])),
      hw a (by simp) f hf]
    by_cases h : a = owner
    · subst h
      rw [if_pos (by simp : a ∈ a :: l)]
      split
      · cases w a <;> rfl
      · rfl
    · rw [ho a (by simp) h]
      simp [Ne.symm h]

/-- A pixel after the block of a screen position is written (43_tile_compositor.md R229). -/
theorem pixelAt_putBlock {p : VideoParams} {f : Frame} (h : f.sized p) (sy sx : Nat) (c : Rgb) (y x : Nat)
    (hs : 1 ≤ p.scale) (hy : y < p.gridH * 8 * p.scale) (hx : x < p.gridW * 8 * p.scale) :
    pixelAt (putBlock p sy sx c f) y x =
      (if sy = y / p.scale ∧ sx = x / p.scale then some c else none).or (pixelAt f y x) := by
  have split_eq : ∀ k j z : Nat, j < p.scale → (k * p.scale + j = z ↔ k = z / p.scale ∧ j = z % p.scale) := by
    intro k j z hj
    constructor
    · rintro rfl
      rw [Nat.add_comm, Nat.add_mul_div_right _ _ (by omega), Nat.add_mul_mod_self_right, Nat.div_eq_of_lt hj,
        Nat.mod_eq_of_lt hj]
      omega
    · rintro ⟨rfl, rfl⟩
      exact Nat.div_add_mod' z p.scale
  have inner : ∀ j ∈ List.range p.scale, ∀ f1 : Frame, f1.sized p →
      pixelAt ((List.range p.scale).foldl
          (fun f2 i => putPixel (sy * p.scale + j) (sx * p.scale + i) c f2) f1) y x =
        (if sy * p.scale + j = y ∧ sx = x / p.scale then some c else none).or (pixelAt f1 y x) := by
    intro j _ f1 h1
    rw [pixelAt_foldl (p := p) _
      (fun i => if sy * p.scale + j = y ∧ sx * p.scale + i = x then some c else none) y x (x % p.scale) _ _ h1
      (fun i f hf => putPixel_sized _ _ _ hf)]
    · rw [if_pos (List.mem_range.mpr (Nat.mod_lt _ (by omega)))]
      congr 1
      have := split_eq sx (x % p.scale) x (Nat.mod_lt _ (by omega))
      simp only [this, and_true]
    · intro i _ f hf
      rw [pixelAt_putPixel hf _ _ _ _ _ hy hx]
      split <;> rfl
    · intro i hi hne
      rw [if_neg]
      rintro ⟨-, he⟩
      exact hne ((split_eq _ _ _ (List.mem_range.mp hi)).mp he).2
  rw [putBlock, pixelAt_foldl (p := p) _
    (fun j => if sy * p.scale + j = y ∧ sx = x / p.scale then some c else none) y x (y % p.scale) _ _ h
    (fun j f hf => foldl_keeps (Frame.sized p) _ _ _ hf fun _ _ h2 => putPixel_sized _ _ _ h2)
    inner]
  · rw [if_pos (List.mem_range.mpr (Nat.mod_lt _ (by omega)))]
    congr 1
    have := split_eq sy (y % p.scale) y (Nat.mod_lt _ (by omega))
    simp only [this, and_true]
  · intro j hj hne
    rw [if_neg]
    rintro ⟨he, -⟩
    exact hne ((split_eq _ _ _ (List.mem_range.mp hj)).mp he).2

/-- A pixel after a placement, clipped to the grid (43_tile_compositor.md R228, R229). -/
theorem pixelAt_placePixel {p : VideoParams} {f : Frame} (h : f.sized p) (sy sx : Int) (c : Rgb) (y x : Nat)
    (hs : 1 ≤ p.scale) (hy : y < p.gridH * 8 * p.scale) (hx : x < p.gridW * 8 * p.scale) :
    pixelAt (placePixel p sy sx c f) y x =
      (if sy = (y / p.scale : Nat) ∧ sx = (x / p.scale : Nat) then some c else none).or (pixelAt f y x) := by
  have by' : y / p.scale < p.gridH * 8 := Nat.div_lt_of_lt_mul (by rw [Nat.mul_comm]; exact hy)
  have bx' : x / p.scale < p.gridW * 8 := Nat.div_lt_of_lt_mul (by rw [Nat.mul_comm]; exact hx)
  unfold placePixel
  split
  · rename_i hout
    generalize y / p.scale = u at by' ⊢
    generalize x / p.scale = w at bx' ⊢
    rw [if_neg (by omega)]
    rfl
  · rw [pixelAt_putBlock h _ _ _ _ _ hs hy hx]
    generalize y / p.scale = u at by' ⊢
    generalize x / p.scale = w at bx' ⊢
    congr 1
    have e : (sy.toNat = u ∧ sx.toNat = w) ↔ (sy = (u : Int) ∧ sx = (w : Int)) := by omega
    simp only [e]

/-! ### Fields as numbers (43_tile_compositor.md R212 to R221, R226) -/

theorem hscroll_eq (p : VideoParams) (v : Video) :
    hscroll p v = (vregByte v p.regHscrollHi).toNat % 2 * 256 + (vregByte v p.regHscrollLo).toNat := by
  have h := bit_toNat (vregByte v p.regHscrollHi) 0
  rw [Nat.pow_zero, Nat.div_one] at h
  rw [hscroll, ← h]
  cases (vregByte v p.regHscrollHi).getLsbD 0 <;> rfl

theorem mapbase_eq (p : VideoParams) (v : Video) :
    mapbase p v = (vregByte v p.regMapbase).toNat % 128 * p.tilemapBlock := by
  simp only [mapbase, field_toNat, Nat.pow_zero, Nat.div_one, Nat.reducePow]

theorem tileIndex_eq (e : Word) : tileIndex e = e.toNat % 2048 := by
  simp only [tileIndex, field_toNat, Nat.pow_zero, Nat.div_one, Nat.reducePow]

theorem paletteRow_eq (e : Word) : paletteRow e = e.toNat / 8192 := by
  have := e.isLt
  rw [paletteRow, field_toNat]
  omega

theorem flipped_hflip (e : Word) (x : Nat) :
    flipped (hflip e) x = if e.toNat / 2048 % 2 = 1 then 7 - x else x := by
  simp only [flipped, hflip, bit_iff, Nat.reducePow]

theorem flipped_vflip (e : Word) (y : Nat) :
    flipped (vflip e) y = if e.toNat / 4096 % 2 = 1 then 7 - y else y := by
  simp only [flipped, vflip, bit_iff, Nat.reducePow]

theorem colourIndex_eq (q : Planes) (x : Nat) :
    colourIndex q x = q.p3.toNat / 2 ^ (7 - x) % 2 * 8 + q.p2.toNat / 2 ^ (7 - x) % 2 * 4 +
      q.p1.toNat / 2 ^ (7 - x) % 2 * 2 + q.p0.toNat / 2 ^ (7 - x) % 2 := by
  simp only [colourIndex, bit_toNat]

end Sys2Proof.Machine
end

