-- ==== Sys2Proof/Laws/Decode.lean ====
section
/-! SUPPORT. The laws of decoding: which words each handler has, as arithmetic on the word; reading words back
from their bytes; decoding an opcode word followed by its extension words. -/

namespace Sys2Proof

/-! ### Words in a list of bytes -/

/-- The words whose bytes stand first are taken back. -/
theorem takeWords_append (ws : List Word) (rest : List Byte) :
    takeWords ws.length (ws.flatMap wordBytes ++ rest) = some (ws, rest) := by
  induction ws with
  | nil => rfl
  | cons w ws ih =>
    show takeWords (ws.length + 1) (w.extractLsb' 8 8 :: w.extractLsb' 0 8 :: (ws.flatMap wordBytes ++ rest)) = _
    simp only [takeWords, ih, wordOf_parts]

/-- Words taken are those whose bytes stand first. -/
theorem takeWords_eq_some {k : Nat} {bytes rest : List Byte} {ws : List Word}
    (h : takeWords k bytes = some (ws, rest)) : bytes = ws.flatMap wordBytes ++ rest ∧ ws.length = k := by
  induction k generalizing bytes ws with
  | zero => cases h; exact ⟨rfl, rfl⟩
  | succ k ih =>
    match bytes, h with
    | hi :: lo :: tl, h =>
      simp only [takeWords] at h
      split at h
      · rename_i ws' rest' he
        cases h
        obtain ⟨rfl, rfl⟩ := ih he
        exact ⟨by simp [wordBytes], rfl⟩
      · cases h
    | [], h => simp [takeWords] at h
    | [_], h => simp [takeWords] at h

/-- Words whose bytes stand first are the first words. -/
theorem prefix_of_bytes {a b : List Word} {r : List Byte}
    (h : a.flatMap wordBytes = b.flatMap wordBytes ++ r) : b <+: a := by
  induction b generalizing a with
  | nil => simp
  | cons w b ih =>
    match a, h with
    | [], h => simp [wordBytes] at h
    | v :: a, h =>
      simp only [List.flatMap_cons, wordBytes, List.cons_append, List.nil_append, List.cons.injEq] at h
      obtain ⟨h1, h2, h3⟩ := h
      rw [List.cons_prefix_cons]
      exact ⟨by rw [← wordOf_parts w, ← wordOf_parts v, h1, h2], ih h3⟩

/-! ### The masks of the dispatch table -/

theorem and_FF00 (op : Word) : (op &&& 0xFF00#16).toNat = op.toNat / 256 * 256 := by
  have h : op &&& 0xFF00#16 = op.extractLsb' 8 8 ++ 0#8 := by
    apply BitVec.eq_of_getLsbD_eq
    intro i hi
    simp only [BitVec.getLsbD_and, BitVec.getLsbD_append, BitVec.getLsbD_extractLsb', BitVec.getLsbD_ofNat]
    interval_cases i <;> simp [-BitVec.getLsbD_eq_getElem, Nat.testBit]
  have := op.isLt
  rw [h, append_toNat, field_toNat]
  simp only [BitVec.toNat_ofNat]
  omega

theorem and_F1FF (op : Word) : (op &&& 0xF1FF#16).toNat = op.toNat / 4096 * 4096 + op.toNat % 512 := by
  have h : op &&& 0xF1FF#16 = op.extractLsb' 12 4 ++ (0#3 ++ op.extractLsb' 0 9) := by
    apply BitVec.eq_of_getLsbD_eq
    intro i hi
    simp only [BitVec.getLsbD_and, BitVec.getLsbD_append, BitVec.getLsbD_extractLsb', BitVec.getLsbD_ofNat]
    interval_cases i <;> simp [-BitVec.getLsbD_eq_getElem, Nat.testBit]
  have := op.isLt
  rw [h]
  simp only [append_toNat, field_toNat, BitVec.toNat_ofNat]
  omega

theorem and_F1F8 (op : Word) : (op &&& 0xF1F8#16).toNat = op.toNat / 4096 * 4096 + op.toNat % 512 / 8 * 8 := by
  have h : op &&& 0xF1F8#16 = op.extractLsb' 12 4 ++ (0#3 ++ (op.extractLsb' 3 6 ++ 0#3)) := by
    apply BitVec.eq_of_getLsbD_eq
    intro i hi
    simp only [BitVec.getLsbD_and, BitVec.getLsbD_append, BitVec.getLsbD_extractLsb', BitVec.getLsbD_ofNat]
    interval_cases i <;> simp [-BitVec.getLsbD_eq_getElem, Nat.testBit]
  have := op.isLt
  rw [h]
  simp only [append_toNat, field_toNat, BitVec.toNat_ofNat]
  omega

theorem hits_iff (r : DispatchRow) (op : Word) : r.hits op = true ↔ (op &&& r.mask).toNat = r.pattern.toNat := by
  simp [DispatchRow.hits, ← BitVec.toNat_inj]

theorem hits_full (op pat : Word) (h : Handler) :
    (DispatchRow.mk 0xFFFF#16 pat h).hits op = true ↔ op.toNat = pat.toNat := by
  have : op &&& 0xFFFF#16 = op := BitVec.and_allOnes
  rw [hits_iff, this]

theorem hits_high (op pat : Word) (h : Handler) :
    (DispatchRow.mk 0xFF00#16 pat h).hits op = true ↔ op.toNat / 256 * 256 = pat.toNat := by
  simp only [hits_iff, and_FF00]

theorem hits_move (op pat : Word) (h : Handler) :
    (DispatchRow.mk 0xF1FF#16 pat h).hits op = true ↔
      op.toNat / 4096 * 4096 + op.toNat % 512 = pat.toNat := by
  simp only [hits_iff, and_F1FF]

theorem hits_alu (op pat : Word) (h : Handler) :
    (DispatchRow.mk 0xF1F8#16 pat h).hits op = true ↔
      op.toNat / 4096 * 4096 + op.toNat % 512 / 8 * 8 = pat.toNat := by
  simp only [hits_iff, and_F1F8]

/-! ### Dispatch -/

/-- The words of each handler (30_encoding.md R97, R100). -/
theorem handlerOf_iff (p : CoreParams) (op : Word) (h : Handler) : handlerOf p op = some h ↔
    match h with
    | .nop => op.toNat = 0x4E71
    | .rts => op.toNat = 0x4E75
    | .jsr => op.toNat = 0x4EB9
    | .bra => op.toNat / 256 = 0x60
    | .beq => op.toNat / 256 = 0x67
    | .bne => p.hasBne = true ∧ op.toNat / 256 = 0x66
    | .moveWImm => op.toNat / 4096 = 3 ∧ op.toNat % 512 = 0x3C
    | .cmpW => op.toNat / 4096 = 0xB ∧ op.toNat % 512 / 8 = 8
    | .addW => op.toNat / 4096 = 0xD ∧ op.toNat % 512 / 8 = 8 := by
  have hlt := op.isLt
  cases hb : p.hasBne <;>
    simp only [handlerOf, hb, dispatchRows, if_true, Bool.false_eq_true, if_false, List.cons_append,
      List.nil_append, firstHit, hits_full, hits_high, hits_move, hits_alu, BitVec.toNat_ofNat, Nat.reducePow,
      Nat.reduceMod] <;>
    split_ifs <;> cases h <;>
    simp only [Option.some.injEq, reduceCtorEq, true_iff, false_iff, false_and, true_and] <;> omega

/-- An opcode word followed by as many words as its handler consumes decodes to the handler's instruction. -/
theorem decode_words {p : CoreParams} {op : Word} {exts : List Word} {h : Handler} (rest : List Byte)
    (hh : handlerOf p op = some h) (hk : extCount p h op = exts.length) :
    decode p ((op :: exts).flatMap wordBytes ++ rest) = .ok (assemble h op exts, rest) := by
  show decode p (op.extractLsb' 8 8 :: op.extractLsb' 0 8 :: (exts.flatMap wordBytes ++ rest)) = _
  simp only [decode, wordOf_parts, hh, hk, takeWords_append]

/-- What decodes is an opcode word of a handler followed by the words it consumes. -/
theorem decode_eq_ok {p : CoreParams} {bytes rest : List Byte} {i : Instr} (h : decode p bytes = .ok (i, rest)) :
    ∃ op k exts, handlerOf p op = some k ∧ exts.length = extCount p k op ∧ i = assemble k op exts ∧
      bytes = (op :: exts).flatMap wordBytes ++ rest := by
  match bytes, h with
  | hi :: lo :: tl, h =>
    simp only [decode] at h
    split at h
    · cases h
    · rename_i k hk
      split at h
      · cases h
      · rename_i exts rest' he
        cases h
        obtain ⟨rfl, hl⟩ := takeWords_eq_some he
        exact ⟨_, k, exts, hk, hl, rfl, by simp [wordBytes]⟩
  | [], h => simp [decode] at h
  | [_], h => simp [decode] at h

/-- The length of an instruction, from the extension words its handler consumed (30_encoding.md R91). -/
theorem instrLength_assemble (h : Handler) (op : Word) (exts : List Word) (p : CoreParams)
    (hl : exts.length = extCount p h op) : instrLength (assemble h op exts) = 2 * exts.length + 2 := by
  have hb : (exts.length = if d8Field op = 0#8 ∧ p.branchD8Zero = .wordEscape then 1 else 0) →
      branchLength (branchOperand op exts) = 2 * exts.length + 2 := by
    intro h
    match exts, h with
    | [], _ => rfl
    | [w], _ => rfl
    | _ :: _ :: _, h => split at h <;> simp at h
  cases h <;> simp only [extCount] at hl <;> simp only [assemble, instrLength]
  · omega
  · omega
  · omega
  · exact hb hl
  · exact hb hl
  · exact hb hl
  · omega
  · omega
  · omega

/-! ### Fields of the opcode words -/

/-- A branch's opcode word: its high byte and its displacement byte. -/
theorem branchWord_toNat (k : Nat) (d : Byte) (hk : k < 256) :
    (BitVec.ofNat 16 (256 * k) ||| d.setWidth 16).toNat = 256 * k + d.toNat := by
  have hd := d.isLt
  rw [BitVec.toNat_or, BitVec.toNat_setWidth, BitVec.toNat_ofNat, Nat.mod_eq_of_lt (by omega),
    Nat.mod_eq_of_lt (by omega), Nat.mul_comm, show (256 : Nat) = 2 ^ 8 from rfl, ← Nat.shiftLeft_eq,
    ← Nat.shiftLeft_add_eq_or_of_lt hd]

/-- A MOVE.W's opcode word. -/
theorem moveWord_toNat : ∀ n : RegNum, (0x303C#16 ||| regBits n 9).toNat = 0x303C + 0x200 * n.val := by decide

/-- A CMP.W's opcode word. -/
theorem cmpWord_toNat : ∀ x y : RegNum,
    (0xB040#16 ||| regBits x 9 ||| regBits y 0).toNat = 0xB040 + 0x200 * x.val + y.val := by decide

/-- An ADD.W's opcode word. -/
theorem addWord_toNat : ∀ x y : RegNum,
    (0xD040#16 ||| regBits x 9 ||| regBits y 0).toNat = 0xD040 + 0x200 * x.val + y.val := by decide

/-- The displacement byte of a branch's opcode word. -/
theorem d8Field_toNat (op : Word) : (d8Field op).toNat = op.toNat % 256 := by
  rw [d8Field, field_toNat, Nat.pow_zero, Nat.div_one]
  rfl

theorem d8Field_branchWord (k : Nat) (d : Byte) (hk : k < 256) :
    d8Field (BitVec.ofNat 16 (256 * k) ||| d.setWidth 16) = d := by
  apply BitVec.eq_of_toNat_eq
  have := d.isLt
  rw [d8Field_toNat, branchWord_toNat k d hk]
  omega

end Sys2Proof
end

