-- ==== Sys2Proof/Laws/Memory.lean ====
section
/-! SUPPORT. The laws of sparse arrays and of AddressSpace: reading after a write, the canonical form kept,
equal reads of canonical arrays. -/

namespace Sys2Proof.Machine

theorem sparseGet_cons {α : Type} (z : α) (c : Nat × α) (m : List (Nat × α)) (a : Nat) :
    sparseGet z (c :: m) a = if c.1 = a then c.2 else sparseGet z m a := rfl

section sparse

variable {α : Type} [DecidableEq α]

omit [DecidableEq α] in
/-- An index below every listed one reads as unlisted. -/
theorem sparseGet_of_lt (z : α) (m : List (Nat × α)) (a : Nat) (h : ∀ c ∈ m, a < c.1) :
    sparseGet z m a = z := by
  induction m with
  | nil => rfl
  | cons c m ih =>
    have hc := h c (by simp)
    rw [sparseGet_cons, if_neg (by omega), ih (fun c' hc' => h c' (by simp [hc']))]

theorem sparseGet_sparseCons (z : α) (a : Nat) (v : α) (m : List (Nat × α)) (b : Nat)
    (h : ∀ c ∈ m, a < c.1) :
    sparseGet z (sparseCons z a v m) b = if a = b then v else sparseGet z m b := by
  unfold sparseCons
  split
  · subst v
    split
    · subst b; exact sparseGet_of_lt z m a h
    · rfl
  · rfl

/-- Reading after a write, in a canonical array. -/
theorem sparseGet_sparseSet (z : α) (m : List (Nat × α)) (a : Nat) (v : α) (b : Nat)
    (h : m.Pairwise (fun x y => x.1 < y.1)) :
    sparseGet z (sparseSet z m a v) b = if a = b then v else sparseGet z m b := by
  induction m with
  | nil => exact sparseGet_sparseCons z a v [] b (by simp)
  | cons c m ih =>
    obtain ⟨k, w⟩ := c
    rw [List.pairwise_cons] at h
    unfold sparseSet
    split
    · rename_i hlt
      refine sparseGet_sparseCons z a v _ b ?_
      intro c hc
      rcases List.mem_cons.mp hc with rfl | hc
      · exact hlt
      · exact lt_trans hlt (h.1 c hc)
    · split
      · subst k
        rw [sparseGet_sparseCons z a v m b h.1, sparseGet_cons]
        by_cases hab : a = b <;> simp [hab]
      · rename_i hnlt hne
        rw [sparseGet_cons, sparseGet_cons, ih h.2]
        by_cases hkb : k = b
        · have : a ≠ b := by omega
          simp [hkb, this]
        · simp [hkb]

theorem mem_sparseCons (z : α) (a : Nat) (v : α) (m : List (Nat × α)) (c : Nat × α)
    (hc : c ∈ sparseCons z a v m) : (c = (a, v) ∧ v ≠ z) ∨ c ∈ m := by
  unfold sparseCons at hc
  split at hc
  · exact .inr hc
  · rcases List.mem_cons.mp hc with rfl | h
    · exact .inl ⟨rfl, by assumption⟩
    · exact .inr h

/-- What a write leaves listed: the written entry, or an entry that was there. -/
theorem mem_sparseSet (z : α) (m : List (Nat × α)) (a : Nat) (v : α) (c : Nat × α)
    (hc : c ∈ sparseSet z m a v) : (c = (a, v) ∧ v ≠ z) ∨ c ∈ m := by
  induction m with
  | nil => exact mem_sparseCons z a v [] c hc
  | cons e m ih =>
    obtain ⟨k, w⟩ := e
    unfold sparseSet at hc
    split at hc
    · exact mem_sparseCons z a v _ c hc
    · split at hc
      · rcases mem_sparseCons z a v m c hc with h | h
        · exact .inl h
        · exact .inr (by simp [h])
      · rcases List.mem_cons.mp hc with rfl | h
        · exact .inr (by simp)
        · rcases ih h with h | h
          · exact .inl h
          · exact .inr (by simp [h])

theorem sparseCons_pairwise (z : α) (a : Nat) (v : α) (m : List (Nat × α))
    (h : m.Pairwise (fun x y => x.1 < y.1)) (ha : ∀ c ∈ m, a < c.1) :
    (sparseCons z a v m).Pairwise (fun x y => x.1 < y.1) := by
  unfold sparseCons
  split
  · exact h
  · exact List.pairwise_cons.mpr ⟨ha, h⟩

theorem sparseSet_pairwise (z : α) (m : List (Nat × α)) (a : Nat) (v : α)
    (h : m.Pairwise (fun x y => x.1 < y.1)) : (sparseSet z m a v).Pairwise (fun x y => x.1 < y.1) := by
  induction m with
  | nil => exact sparseCons_pairwise z a v [] h (by simp)
  | cons e m ih =>
    obtain ⟨k, w⟩ := e
    have hc := List.pairwise_cons.mp h
    unfold sparseSet
    split
    · rename_i hlt
      refine sparseCons_pairwise z a v _ h ?_
      intro c hmem
      rcases List.mem_cons.mp hmem with rfl | hmem
      · exact hlt
      · exact lt_trans hlt (hc.1 c hmem)
    · split
      · subst k; exact sparseCons_pairwise z a v m hc.2 hc.1
      · refine List.pairwise_cons.mpr ⟨?_, ih hc.2⟩
        intro c hmem
        rcases mem_sparseSet z m a v c hmem with ⟨rfl, -⟩ | hmem
        · show k < a
          omega
        · exact hc.1 c hmem

/-- A write keeps the canonical form. -/
theorem sparseSet_wf (z : α) (m : List (Nat × α)) (a : Nat) (v : α) (h : sparseWf z m) :
    sparseWf z (sparseSet z m a v) := by
  refine ⟨sparseSet_pairwise z m a v h.1, ?_⟩
  intro c hc
  rcases mem_sparseSet z m a v c hc with ⟨rfl, hv⟩ | hc
  · exact hv
  · exact h.2 c hc

/-- A write below a bound keeps every index below it. -/
theorem sparseSet_below (z : α) (m : List (Nat × α)) (a : Nat) (v : α) (bound : Nat)
    (h : sparseBelow bound m) (ha : a < bound) : sparseBelow bound (sparseSet z m a v) := by
  intro c hc
  rcases mem_sparseSet z m a v c hc with ⟨rfl, -⟩ | hc
  · exact ha
  · exact h c hc

omit [DecidableEq α] in
/-- An index at or above the bound of every listed one reads as unlisted. -/
theorem sparseGet_of_below (z : α) (m : List (Nat × α)) (bound a : Nat) (h : sparseBelow bound m)
    (ha : bound ≤ a) : sparseGet z m a = z := by
  induction m with
  | nil => rfl
  | cons c m ih =>
    have hc := h c (by simp)
    rw [sparseGet_cons, if_neg (by omega), ih (fun c' hc' => h c' (by simp [hc']))]

/-- Two canonical arrays that read alike everywhere are one array. -/
theorem sparse_ext (z : α) (m₁ m₂ : List (Nat × α)) (h₁ : sparseWf z m₁) (h₂ : sparseWf z m₂)
    (h : ∀ a, sparseGet z m₁ a = sparseGet z m₂ a) : m₁ = m₂ := by
  induction m₁ generalizing m₂ with
  | nil =>
    cases m₂ with
    | nil => rfl
    | cons c m₂ =>
      have := h c.1
      rw [sparseGet_cons, if_pos rfl] at this
      exact absurd this.symm (h₂.2 c (by simp))
  | cons c₁ m₁ ih =>
    cases m₂ with
    | nil =>
      have := h c₁.1
      rw [sparseGet_cons, if_pos rfl] at this
      exact absurd this (h₁.2 c₁ (by simp))
    | cons c₂ m₂ =>
      obtain ⟨k₁, v₁⟩ := c₁
      obtain ⟨k₂, v₂⟩ := c₂
      have p₁ := List.pairwise_cons.mp h₁.1
      have p₂ := List.pairwise_cons.mp h₂.1
      have hk : k₁ = k₂ := by
        rcases Nat.lt_trichotomy k₁ k₂ with hlt | heq | hlt
        · have hk := h k₁
          rw [sparseGet_cons, if_pos rfl, sparseGet_of_lt z _ k₁] at hk
          · exact absurd hk (h₁.2 (k₁, v₁) (by simp))
          · intro c hc
            rcases List.mem_cons.mp hc with rfl | hc
            · exact hlt
            · exact lt_trans hlt (p₂.1 c hc)
        · exact heq
        · have hk := h k₂
          rw [sparseGet_cons z (k₂, v₂), if_pos rfl, sparseGet_of_lt z _ k₂] at hk
          · exact absurd hk.symm (h₂.2 (k₂, v₂) (by simp))
          · intro c hc
            rcases List.mem_cons.mp hc with rfl | hc
            · exact hlt
            · exact lt_trans hlt (p₁.1 c hc)
      subst hk
      have hv : v₁ = v₂ := by simpa [sparseGet_cons] using h k₁
      subst hv
      congr 1
      refine ih m₂ ⟨p₁.2, fun c hc => h₁.2 c (by simp [hc])⟩ ⟨p₂.2, fun c hc => h₂.2 c (by simp [hc])⟩ ?_
      intro a
      by_cases hka : k₁ = a
      · subst hka
        rw [sparseGet_of_lt z m₁ k₁ p₁.1, sparseGet_of_lt z m₂ k₁ p₂.1]
      · simpa [sparseGet_cons, hka] using h a

end sparse

/-! ### AddressSpace -/

/-- The rising order of a memory's addresses, all that reading after a write needs. -/
abbrev memSorted (m : Memory) : Prop := m.Pairwise (fun x y => x.1 < y.1)

theorem putByte_wf (m : Memory) (a : Nat) (b : Byte) (h : Memory.wf m) : Memory.wf (putByte m a b) :=
  sparseSet_wf _ m a b h

theorem putByte_below (m : Memory) (a : Nat) (b : Byte) (bound : Nat) (h : sparseBelow bound m) (ha : a < bound) :
    sparseBelow bound (putByte m a b) := sparseSet_below _ m a b bound h ha

/-- Reading a byte after writing one. -/
theorem memByte_putByte (m : Memory) (a : Nat) (b : Byte) (x : Nat) (h : Memory.wf m) :
    memByte (putByte m a b) x = if a = x then b else memByte m x := sparseGet_sparseSet _ m a b x h.1

theorem write16_wf (m : Memory) (a : Nat) (v : Word) (h : Memory.wf m) : Memory.wf (write16 m a v) :=
  putByte_wf _ _ _ (putByte_wf _ _ _ h)

theorem write8_wf (m : Memory) (a : Nat) (v : Byte) (h : Memory.wf m) : Memory.wf (write8 m a v) :=
  write16_wf _ _ _ h

theorem write32_wf (m : Memory) (a : Nat) (v : Long) (h : Memory.wf m) : Memory.wf (write32 m a v) :=
  putByte_wf _ _ _ (putByte_wf _ _ _ (putByte_wf _ _ _ (putByte_wf _ _ _ h)))

theorem write16_below (m : Memory) (a : Nat) (v : Word) (bound : Nat) (h : sparseBelow bound m)
    (ha : a + 2 ≤ bound) : sparseBelow bound (write16 m a v) :=
  putByte_below _ _ _ _ (putByte_below _ _ _ _ h (by omega)) (by omega)

theorem write32_below (m : Memory) (a : Nat) (v : Long) (bound : Nat) (h : sparseBelow bound m)
    (ha : a + 4 ≤ bound) : sparseBelow bound (write32 m a v) :=
  putByte_below _ _ _ _ (putByte_below _ _ _ _ (putByte_below _ _ _ _ (putByte_below _ _ _ _ h
    (by omega)) (by omega)) (by omega)) (by omega)

/-- Every byte after a 16-bit write (20_memory.md R63). -/
theorem memByte_write16 (m : Memory) (a : Nat) (v : Word) (x : Nat) (h : Memory.wf m) :
    memByte (write16 m a v) x =
      if x = a then v.extractLsb' 8 8 else if x = a + 1 then v.extractLsb' 0 8 else memByte m x := by
  unfold write16
  rw [memByte_putByte _ _ _ _ (putByte_wf _ _ _ h), memByte_putByte _ _ _ _ h]
  by_cases h0 : x = a
  · subst h0; simp
  · by_cases h1 : x = a + 1
    · subst h1; simp
    · simp [h0, h1, Ne.symm h0, Ne.symm h1]

/-- Every byte after a 32-bit write (20_memory.md R64). -/
theorem memByte_write32 (m : Memory) (a : Nat) (v : Long) (x : Nat) (h : Memory.wf m) :
    memByte (write32 m a v) x =
      if x = a then v.extractLsb' 24 8 else if x = a + 1 then v.extractLsb' 16 8
      else if x = a + 2 then v.extractLsb' 8 8 else if x = a + 3 then v.extractLsb' 0 8 else memByte m x := by
  unfold write32
  have h1 := putByte_wf m a (v.extractLsb' 24 8) h
  have h2 := putByte_wf _ (a + 1) (v.extractLsb' 16 8) h1
  have h3 := putByte_wf _ (a + 2) (v.extractLsb' 8 8) h2
  rw [memByte_putByte _ _ _ _ h3, memByte_putByte _ _ _ _ h2, memByte_putByte _ _ _ _ h1,
    memByte_putByte _ _ _ _ h]
  by_cases x0 : x = a
  · subst x0; simp
  by_cases x1 : x = a + 1
  · subst x1; simp
  by_cases x2 : x = a + 2
  · subst x2; simp
  by_cases x3 : x = a + 3
  · subst x3; simp
  simp [x0, x1, x2, x3, Ne.symm x0, Ne.symm x1, Ne.symm x2, Ne.symm x3]

/-- Every byte outside the four of a 32-bit write reads as before. -/
theorem memByte_write32_outside (m : Memory) (a : Nat) (v : Long) (x : Nat) (h : Memory.wf m)
    (hx : x < a ∨ a + 4 ≤ x) : memByte (write32 m a v) x = memByte m x := by
  rw [memByte_write32 _ _ _ _ h, if_neg (by omega), if_neg (by omega), if_neg (by omega), if_neg (by omega)]

/-- The value of a 32-bit read, byte by byte (20_memory.md R64). -/
theorem read32_toNat (m : Memory) (a : Nat) : (read32 m a).toNat =
    (memByte m a).toNat * 2 ^ 24 + (memByte m (a + 1)).toNat * 2 ^ 16 + (memByte m (a + 2)).toNat * 2 ^ 8 +
      (memByte m (a + 3)).toNat := by
  rw [read32, longOf_toNat, read16, read16, wordOf_toNat, wordOf_toNat, show a + 3 = a + 2 + 1 from rfl]
  omega

/-- A word read back from where it was written. -/
theorem read16_write16 (m : Memory) (a : Nat) (v : Word) (h : Memory.wf m) : read16 (write16 m a v) a = v := by
  rw [read16, memByte_write16 m a v a h, memByte_write16 m a v (a + 1) h]
  simp

/-- A long read back from where it was written. -/
theorem read32_write32 (m : Memory) (a : Nat) (v : Long) (h : Memory.wf m) : read32 (write32 m a v) a = v := by
  rw [read32, read16, read16, memByte_write32 _ _ _ _ h, memByte_write32 _ _ _ _ h, memByte_write32 _ _ _ _ h,
    memByte_write32 _ _ _ _ h]
  have h3 : a + 2 + 1 ≠ a := by omega
  simpa [h3] using longOf_bytes v

/-- A size-1 read reaches the byte after its address (20_memory.md R65). -/
theorem read8_eq (m : Memory) (a : Nat) : read8 m a = memByte m (a + 1) := wordOf_low _ _

/-- Every byte after a size-1 write: only the one after its address changes (20_memory.md R65). -/
theorem memByte_write8 (m : Memory) (a : Nat) (v : Byte) (x : Nat) (h : Memory.wf m) :
    memByte (write8 m a v) x = if x = a + 1 then v else memByte m x := by
  rw [write8, memByte_write16 _ _ _ _ h, wordOf_high, wordOf_low, read16, wordOf_high]
  by_cases hx : x = a
  · subst hx; simp
  · simp [hx]

end Sys2Proof.Machine
end

