-- ==== Sys2Proof/Laws/State.lean ====
section
/-! SUPPORT. What each update of State leaves in each field, so that no proof unfolds a record update. -/

namespace Sys2Proof.Machine

/-! ### setD -/

@[simp] theorem setD_params (r : RegNum) (v : Long) (s : State) : (setD r v s).params = s.params := rfl
@[simp] theorem setD_ready (r : RegNum) (v : Long) (s : State) : (setD r v s).ready = s.ready := rfl
@[simp] theorem setD_d (r : RegNum) (v : Long) (s : State) : (setD r v s).d = s.d.set r v := rfl
@[simp] theorem setD_a (r : RegNum) (v : Long) (s : State) : (setD r v s).a = s.a := rfl
@[simp] theorem setD_pc (r : RegNum) (v : Long) (s : State) : (setD r v s).pc = s.pc := rfl
@[simp] theorem setD_sr (r : RegNum) (v : Long) (s : State) : (setD r v s).sr = s.sr := rfl
@[simp] theorem setD_mem (r : RegNum) (v : Long) (s : State) : (setD r v s).mem = s.mem := rfl
@[simp] theorem setD_faulted (r : RegNum) (v : Long) (s : State) : (setD r v s).faulted = s.faulted := rfl
@[simp] theorem setD_halted (r : RegNum) (v : Long) (s : State) : (setD r v s).halted = s.halted := rfl
@[simp] theorem setD_fault (r : RegNum) (v : Long) (s : State) : (setD r v s).fault = s.fault := rfl
@[simp] theorem setD_log (r : RegNum) (v : Long) (s : State) : (setD r v s).log = s.log := rfl
@[simp] theorem setD_video (r : RegNum) (v : Long) (s : State) : (setD r v s).video = s.video := rfl

/-! ### setA -/

@[simp] theorem setA_params (r : RegNum) (v : Long) (s : State) : (setA r v s).params = s.params := rfl
@[simp] theorem setA_ready (r : RegNum) (v : Long) (s : State) : (setA r v s).ready = s.ready := rfl
@[simp] theorem setA_d (r : RegNum) (v : Long) (s : State) : (setA r v s).d = s.d := rfl
@[simp] theorem setA_a (r : RegNum) (v : Long) (s : State) : (setA r v s).a = s.a.set r v := rfl
@[simp] theorem setA_pc (r : RegNum) (v : Long) (s : State) : (setA r v s).pc = s.pc := rfl
@[simp] theorem setA_sr (r : RegNum) (v : Long) (s : State) : (setA r v s).sr = s.sr := rfl
@[simp] theorem setA_mem (r : RegNum) (v : Long) (s : State) : (setA r v s).mem = s.mem := rfl
@[simp] theorem setA_faulted (r : RegNum) (v : Long) (s : State) : (setA r v s).faulted = s.faulted := rfl
@[simp] theorem setA_halted (r : RegNum) (v : Long) (s : State) : (setA r v s).halted = s.halted := rfl
@[simp] theorem setA_fault (r : RegNum) (v : Long) (s : State) : (setA r v s).fault = s.fault := rfl
@[simp] theorem setA_log (r : RegNum) (v : Long) (s : State) : (setA r v s).log = s.log := rfl
@[simp] theorem setA_video (r : RegNum) (v : Long) (s : State) : (setA r v s).video = s.video := rfl

/-! ### setPc -/

@[simp] theorem setPc_params (v : Long) (s : State) : (setPc v s).params = s.params := rfl
@[simp] theorem setPc_ready (v : Long) (s : State) : (setPc v s).ready = s.ready := rfl
@[simp] theorem setPc_d (v : Long) (s : State) : (setPc v s).d = s.d := rfl
@[simp] theorem setPc_a (v : Long) (s : State) : (setPc v s).a = s.a := rfl
@[simp] theorem setPc_pc (v : Long) (s : State) : (setPc v s).pc = v := rfl
@[simp] theorem setPc_sr (v : Long) (s : State) : (setPc v s).sr = s.sr := rfl
@[simp] theorem setPc_mem (v : Long) (s : State) : (setPc v s).mem = s.mem := rfl
@[simp] theorem setPc_faulted (v : Long) (s : State) : (setPc v s).faulted = s.faulted := rfl
@[simp] theorem setPc_halted (v : Long) (s : State) : (setPc v s).halted = s.halted := rfl
@[simp] theorem setPc_fault (v : Long) (s : State) : (setPc v s).fault = s.fault := rfl
@[simp] theorem setPc_log (v : Long) (s : State) : (setPc v s).log = s.log := rfl
@[simp] theorem setPc_video (v : Long) (s : State) : (setPc v s).video = s.video := rfl

/-! ### setMem -/

@[simp] theorem setMem_params (m : Memory) (s : State) : (setMem m s).params = s.params := rfl
@[simp] theorem setMem_ready (m : Memory) (s : State) : (setMem m s).ready = s.ready := rfl
@[simp] theorem setMem_d (m : Memory) (s : State) : (setMem m s).d = s.d := rfl
@[simp] theorem setMem_a (m : Memory) (s : State) : (setMem m s).a = s.a := rfl
@[simp] theorem setMem_pc (m : Memory) (s : State) : (setMem m s).pc = s.pc := rfl
@[simp] theorem setMem_sr (m : Memory) (s : State) : (setMem m s).sr = s.sr := rfl
@[simp] theorem setMem_mem (m : Memory) (s : State) : (setMem m s).mem = m := rfl
@[simp] theorem setMem_faulted (m : Memory) (s : State) : (setMem m s).faulted = s.faulted := rfl
@[simp] theorem setMem_halted (m : Memory) (s : State) : (setMem m s).halted = s.halted := rfl
@[simp] theorem setMem_fault (m : Memory) (s : State) : (setMem m s).fault = s.fault := rfl
@[simp] theorem setMem_log (m : Memory) (s : State) : (setMem m s).log = s.log := rfl
@[simp] theorem setMem_video (m : Memory) (s : State) : (setMem m s).video = s.video := rfl

/-! ### setZ -/

@[simp] theorem setZ_params (w : Word) (s : State) : (setZ w s).params = s.params := rfl
@[simp] theorem setZ_ready (w : Word) (s : State) : (setZ w s).ready = s.ready := rfl
@[simp] theorem setZ_d (w : Word) (s : State) : (setZ w s).d = s.d := rfl
@[simp] theorem setZ_a (w : Word) (s : State) : (setZ w s).a = s.a := rfl
@[simp] theorem setZ_pc (w : Word) (s : State) : (setZ w s).pc = s.pc := rfl
@[simp] theorem setZ_sr (w : Word) (s : State) : (setZ w s).sr = srWithZ s.sr (w == 0#16) := rfl
@[simp] theorem setZ_mem (w : Word) (s : State) : (setZ w s).mem = s.mem := rfl
@[simp] theorem setZ_faulted (w : Word) (s : State) : (setZ w s).faulted = s.faulted := rfl
@[simp] theorem setZ_halted (w : Word) (s : State) : (setZ w s).halted = s.halted := rfl
@[simp] theorem setZ_fault (w : Word) (s : State) : (setZ w s).fault = s.fault := rfl
@[simp] theorem setZ_log (w : Word) (s : State) : (setZ w s).log = s.log := rfl
@[simp] theorem setZ_video (w : Word) (s : State) : (setZ w s).video = s.video := rfl

/-! ### raise -/

@[simp] theorem raise_params (e : FaultEvent) (a0 : Long) (s : State) : (raise e a0 s).params = s.params := rfl
@[simp] theorem raise_ready (e : FaultEvent) (a0 : Long) (s : State) : (raise e a0 s).ready = s.ready := rfl
@[simp] theorem raise_d (e : FaultEvent) (a0 : Long) (s : State) : (raise e a0 s).d = s.d := rfl
@[simp] theorem raise_a (e : FaultEvent) (a0 : Long) (s : State) : (raise e a0 s).a = s.a := rfl
@[simp] theorem raise_pc (e : FaultEvent) (a0 : Long) (s : State) : (raise e a0 s).pc = s.pc := rfl
@[simp] theorem raise_sr (e : FaultEvent) (a0 : Long) (s : State) : (raise e a0 s).sr = s.sr := rfl
@[simp] theorem raise_mem (e : FaultEvent) (a0 : Long) (s : State) : (raise e a0 s).mem = s.mem := rfl
@[simp] theorem raise_faulted (e : FaultEvent) (a0 : Long) (s : State) : (raise e a0 s).faulted = true := rfl
@[simp] theorem raise_halted (e : FaultEvent) (a0 : Long) (s : State) : (raise e a0 s).halted = s.halted := rfl
@[simp] theorem raise_fault (e : FaultEvent) (a0 : Long) (s : State) : (raise e a0 s).fault = some ⟨e, a0⟩ := rfl
@[simp] theorem raise_log (e : FaultEvent) (a0 : Long) (s : State) : (raise e a0 s).log = s.log := rfl
@[simp] theorem raise_video (e : FaultEvent) (a0 : Long) (s : State) : (raise e a0 s).video = s.video := rfl

/-! ### signal -/

@[simp] theorem signal_params (g : Signal) (s : State) : (signal g s).params = s.params := rfl
@[simp] theorem signal_ready (g : Signal) (s : State) : (signal g s).ready = s.ready := rfl
@[simp] theorem signal_d (g : Signal) (s : State) : (signal g s).d = s.d := rfl
@[simp] theorem signal_a (g : Signal) (s : State) : (signal g s).a = s.a := rfl
@[simp] theorem signal_pc (g : Signal) (s : State) : (signal g s).pc = s.pc := rfl
@[simp] theorem signal_sr (g : Signal) (s : State) : (signal g s).sr = s.sr := rfl
@[simp] theorem signal_mem (g : Signal) (s : State) : (signal g s).mem = s.mem := rfl
@[simp] theorem signal_faulted (g : Signal) (s : State) : (signal g s).faulted = s.faulted := rfl
@[simp] theorem signal_halted (g : Signal) (s : State) : (signal g s).halted = s.halted := rfl
@[simp] theorem signal_fault (g : Signal) (s : State) : (signal g s).fault = s.fault := rfl
@[simp] theorem signal_log (g : Signal) (s : State) : (signal g s).log = s.log ++ [g] := rfl
@[simp] theorem signal_video (g : Signal) (s : State) : (signal g s).video = s.video := rfl

/-! ### unknownOpcode -/

@[simp] theorem unknownOpcode_params (op : Word) (a0 : Long) (s : State) : (unknownOpcode op a0 s).params = s.params := by
  unfold unknownOpcode; split <;> rfl
@[simp] theorem unknownOpcode_ready (op : Word) (a0 : Long) (s : State) : (unknownOpcode op a0 s).ready = s.ready := by
  unfold unknownOpcode; split <;> rfl
@[simp] theorem unknownOpcode_d (op : Word) (a0 : Long) (s : State) : (unknownOpcode op a0 s).d = s.d := by
  unfold unknownOpcode; split <;> rfl
@[simp] theorem unknownOpcode_a (op : Word) (a0 : Long) (s : State) : (unknownOpcode op a0 s).a = s.a := by
  unfold unknownOpcode; split <;> rfl
@[simp] theorem unknownOpcode_pc (op : Word) (a0 : Long) (s : State) : (unknownOpcode op a0 s).pc = s.pc := by
  unfold unknownOpcode; split <;> rfl
@[simp] theorem unknownOpcode_sr (op : Word) (a0 : Long) (s : State) : (unknownOpcode op a0 s).sr = s.sr := by
  unfold unknownOpcode; split <;> rfl
@[simp] theorem unknownOpcode_mem (op : Word) (a0 : Long) (s : State) : (unknownOpcode op a0 s).mem = s.mem := by
  unfold unknownOpcode; split <;> rfl
@[simp] theorem unknownOpcode_faulted (op : Word) (a0 : Long) (s : State) : (unknownOpcode op a0 s).faulted = s.faulted := by
  unfold unknownOpcode; split <;> rfl
@[simp] theorem unknownOpcode_halted (op : Word) (a0 : Long) (s : State) :
    (unknownOpcode op a0 s).halted = (s.halted || s.params.unknownPolicy == .halt) := by
  unfold unknownOpcode; split <;> rename_i h <;> simp [h]
@[simp] theorem unknownOpcode_fault (op : Word) (a0 : Long) (s : State) : (unknownOpcode op a0 s).fault = s.fault := by
  unfold unknownOpcode; split <;> rfl
@[simp] theorem unknownOpcode_log (op : Word) (a0 : Long) (s : State) :
    (unknownOpcode op a0 s).log = s.log ++ [.unknownInstruction op a0] := by
  unfold unknownOpcode; split <;> rfl
@[simp] theorem unknownOpcode_video (op : Word) (a0 : Long) (s : State) : (unknownOpcode op a0 s).video = s.video := by
  unfold unknownOpcode; split <;> rfl

end Sys2Proof.Machine
end

