-- ==== Sys2Proof/Laws/Ops.lean ====
section
/-! SUPPORT. One lemma for each shared operation: what it gives in bounds, what it raises out of bounds, and
what it keeps. Later proofs cite these instead of unfolding the operation. -/

namespace Sys2Proof.Machine

/-! ### Sequencing -/

@[simp] theorem andThen_done {α β : Type} (v : α) (s : State) (f : α → State → Access β) :
    andThen (.done v s) f = f v s := rfl

@[simp] theorem andThen_raised {α β : Type} (s : State) (f : α → State → Access β) :
    andThen (.raised s : Access α) f = .raised s := rfl

@[simp] theorem endStep_done (s : State) : endStep (.done () s) = .next s := rfl

@[simp] theorem endStep_raised (s : State) : endStep (.raised s) = .next s := rfl

/-- A sequence that completes ran both of its parts. -/
theorem andThen_eq_done {α β : Type} {x : Access α} {f : α → State → Access β} {w : β} {t : State}
    (h : andThen x f = .done w t) : ∃ v s, x = .done v s ∧ f v s = .done w t := by
  cases x with
  | done v s => exact ⟨v, s, rfl, h⟩
  | raised s => cases h

/-- A sequence that raises did so in its first or in its second part. -/
theorem andThen_eq_raised {α β : Type} {x : Access α} {f : α → State → Access β} {t : State}
    (h : andThen x f = .raised t) : x = .raised t ∨ ∃ v s, x = .done v s ∧ f v s = .raised t := by
  cases x with
  | done v s => exact .inr ⟨v, s, rfl, h⟩
  | raised s => cases h; exact .inl rfl

/-- The end of an instruction is always a next state (60_exceptions.md R261). -/
theorem endStep_eq_next {x : Access Unit} {t : State} (h : endStep x = .next t) :
    x = .done () t ∨ x = .raised t := by
  cases x with
  | done v s => cases h; exact .inl rfl
  | raised s => cases h; exact .inr rfl

/-! ### Bounds -/

theorem inBounds_iff (s : State) (addr : Long) (n : Size) :
    inBounds s addr n = true ↔ addr.toNat + max (sizeBytes n) 2 ≤ s.params.memSize := decide_eq_true_iff

/-- An in-bounds word is one below MEM_SIZE with its second byte (20_memory.md R67). -/
theorem inBounds_word (s : State) (addr : Long) :
    inBounds s addr .word = true ↔ addr.toNat + 1 < s.params.memSize := by
  rw [inBounds_iff]
  show addr.toNat + 2 ≤ _ ↔ _
  omega

theorem inBounds_byte (s : State) (addr : Long) :
    inBounds s addr .byte = true ↔ addr.toNat + 1 < s.params.memSize := by
  rw [inBounds_iff]
  show addr.toNat + 2 ≤ _ ↔ _
  omega

theorem inBounds_long (s : State) (addr : Long) :
    inBounds s addr .long = true ↔ addr.toNat + 3 < s.params.memSize := by
  rw [inBounds_iff]
  show addr.toNat + 4 ≤ _ ↔ _
  omega

/-- A masked address is below 2^24 (20_memory.md R61, R70). -/
theorem maskAddr_toNat (ea : Long) : (maskAddr ea).toNat = ea.toNat % 2 ^ 24 := by
  rw [maskAddr, BitVec.toNat_and]
  exact Nat.and_two_pow_sub_one_eq_mod ea.toNat 24

/-! ### AddressSpace accesses -/

theorem memRead_of_inBounds {a0 addr : Long} {n : Size} {s : State} (h : inBounds s addr n = true) :
    memRead a0 addr n s = .done (readSized s.mem addr.toNat n) s := if_pos h

theorem memRead_of_outside {a0 addr : Long} {n : Size} {s : State} (h : inBounds s addr n = false) :
    memRead a0 addr n s = .raised (raise (.addressError addr n .read) a0 s) := by simp [memRead, h]

theorem memWrite_of_inBounds {a0 addr v : Long} {n : Size} {s : State} (h : inBounds s addr n = true) :
    memWrite a0 addr n v s = .done () (setMem (writeSized s.mem addr.toNat v n) s) := if_pos h

theorem memWrite_of_outside {a0 addr v : Long} {n : Size} {s : State} (h : inBounds s addr n = false) :
    memWrite a0 addr n v s = .raised (raise (.addressError addr n .write) a0 s) := by simp [memWrite, h]

/-- Everything `Fetch16` can do (20_memory.md R67). -/
theorem fetch16_cases (a0 addr : Long) (s : State) :
    (addr.toNat + 1 < s.params.memSize ∧ fetch16 a0 addr s = .done (read16 s.mem addr.toNat) s) ∨
    (s.params.memSize ≤ addr.toNat + 1 ∧
      fetch16 a0 addr s = .raised (raise (.addressError addr .word .fetch) a0 s)) := by
  by_cases h : inBounds s addr .word = true
  · exact .inl ⟨(inBounds_word s addr).mp h, if_pos h⟩
  · refine .inr ⟨?_, if_neg h⟩
    rw [inBounds_word] at h
    omega

theorem fetch16_of_wordAt {a0 addr : Long} {s : State} {w : Word} (h : WordAt s addr w) :
    fetch16 a0 addr s = .done w s := by
  rcases fetch16_cases a0 addr s with ⟨-, e⟩ | ⟨hb, -⟩
  · rw [e, h.2]
  · have := h.1
    omega

theorem fetch16_of_noWordAt {a0 addr : Long} {s : State} (h : NoWordAt s addr) :
    fetch16 a0 addr s = .raised (raise (.addressError addr .word .fetch) a0 s) := by
  rcases fetch16_cases a0 addr s with ⟨hb, -⟩ | ⟨-, e⟩
  · exact absurd hb (by omega)
  · exact e

/-- `NextExt()` where AddressSpace holds the word (30_encoding.md R93). -/
theorem nextExt_of_wordAt {a0 : Long} {s : State} {w : Word} (h : WordAt s s.pc w) :
    nextExt a0 s = .done w (setPc (s.pc + 2#32) s) := by
  rw [nextExt, fetch16_of_wordAt h]
  rfl

/-- `NextExt()` where it does not. -/
theorem nextExt_of_noWordAt {a0 : Long} {s : State} (h : NoWordAt s s.pc) :
    nextExt a0 s = .raised (raise (.addressError s.pc .word .fetch) a0 s) := by
  rw [nextExt, fetch16_of_noWordAt h]
  rfl

/-- Everything `NextExt()` can do. -/
theorem nextExt_cases (a0 : Long) (s : State) :
    (WordAt s s.pc (read16 s.mem s.pc.toNat) ∧
      nextExt a0 s = .done (read16 s.mem s.pc.toNat) (setPc (s.pc + 2#32) s)) ∨
    (NoWordAt s s.pc ∧ nextExt a0 s = .raised (raise (.addressError s.pc .word .fetch) a0 s)) := by
  by_cases h : s.pc.toNat + 1 < s.params.memSize
  · exact .inl ⟨⟨h, rfl⟩, nextExt_of_wordAt ⟨h, rfl⟩⟩
  · have hn : NoWordAt s s.pc := by show _ ≤ _; omega
    exact .inr ⟨hn, nextExt_of_noWordAt hn⟩

/-- What `NextExt()` leaves when it completes: pc past the word, and nothing else changed. -/
theorem nextExt_done {a0 : Long} {s t : State} {w : Word} (h : nextExt a0 s = .done w t) :
    WordAt s s.pc w ∧ t = setPc (s.pc + 2#32) s := by
  rcases nextExt_cases a0 s with ⟨hw, e⟩ | ⟨-, e⟩
  · rw [e] at h
    cases h
    exact ⟨hw, rfl⟩
  · rw [e] at h
    cases h

/-! ### The stack -/

/-- Everything `StackPush` can do (41_control.md R160). -/
theorem stackPush_cases (a0 v : Long) (s : State) :
    ((maskAddr (s.a[spReg] - 4#32)).toNat + 3 < s.params.memSize ∧
      stackPush a0 v s = .done () (setMem (write32 s.mem (maskAddr (s.a[spReg] - 4#32)).toNat v)
        (setA spReg (s.a[spReg] - 4#32) s))) ∨
    (s.params.memSize ≤ (maskAddr (s.a[spReg] - 4#32)).toNat + 3 ∧
      stackPush a0 v s = .raised (raise (.addressError (maskAddr (s.a[spReg] - 4#32)) .long .write) a0
        (setA spReg (s.a[spReg] - 4#32) s))) := by
  by_cases h : inBounds (setA spReg (s.a[spReg] - 4#32) s) (maskAddr (s.a[spReg] - 4#32)) .long = true
  · exact .inl ⟨(inBounds_long _ _).mp h, if_pos h⟩
  · refine .inr ⟨?_, if_neg h⟩
    rw [inBounds_long] at h
    exact Nat.le_of_not_lt h

/-- Everything `StackPop` can do (41_control.md R161). -/
theorem stackPop_cases (a0 : Long) (s : State) :
    ((maskAddr s.a[spReg]).toNat + 3 < s.params.memSize ∧
      stackPop a0 s = .done (read32 s.mem (maskAddr s.a[spReg]).toNat) (setA spReg (s.a[spReg] + 4#32) s)) ∨
    (s.params.memSize ≤ (maskAddr s.a[spReg]).toNat + 3 ∧
      stackPop a0 s = .raised (raise (.addressError (maskAddr s.a[spReg]) .long .read) a0
        (setA spReg (s.a[spReg] + 4#32) s))) := by
  by_cases h : inBounds (setA spReg (s.a[spReg] + 4#32) s) (maskAddr s.a[spReg]) .long = true
  · exact .inl ⟨(inBounds_long _ _).mp h, if_pos h⟩
  · refine .inr ⟨?_, if_neg h⟩
    rw [inBounds_long] at h
    exact Nat.le_of_not_lt h

/-! ### The instructions -/

/-- Everything RTS can do (41_control.md R163). -/
theorem execRts_cases (s : State) :
    ((maskAddr s.a[spReg]).toNat + 3 < s.params.memSize ∧
      execRts s = .next (setPc (read32 s.mem (maskAddr s.a[spReg]).toNat)
        (setA spReg (s.a[spReg] + 4#32) s))) ∨
    (s.params.memSize ≤ (maskAddr s.a[spReg]).toNat + 3 ∧
      execRts s = .next (raise (.addressError (maskAddr s.a[spReg]) .long .read) (s.pc - 2#32)
        (setA spReg (s.a[spReg] + 4#32) s))) := by
  rcases stackPop_cases (s.pc - 2#32) s with ⟨h, e⟩ | ⟨h, e⟩
  · exact .inl ⟨h, by rw [execRts, e]; rfl⟩
  · exact .inr ⟨h, by rw [execRts, e]; rfl⟩

/-- Everything JSR can do (41_control.md R164). -/
theorem execJsr_cases (target : Long) (s : State) :
    ((maskAddr (s.a[spReg] - 4#32)).toNat + 3 < s.params.memSize ∧
      execJsr target s = .next (setPc target (setMem (write32 s.mem (maskAddr (s.a[spReg] - 4#32)).toNat s.pc)
        (setA spReg (s.a[spReg] - 4#32) s)))) ∨
    (s.params.memSize ≤ (maskAddr (s.a[spReg] - 4#32)).toNat + 3 ∧
      execJsr target s = .next (raise (.addressError (maskAddr (s.a[spReg] - 4#32)) .long .write) (s.pc - 6#32)
        (setA spReg (s.a[spReg] - 4#32) s))) := by
  rcases stackPush_cases (s.pc - 6#32) s.pc s with ⟨h, e⟩ | ⟨h, e⟩
  · exact .inl ⟨h, by rw [execJsr, e]; rfl⟩
  · exact .inr ⟨h, by rw [execJsr, e]; rfl⟩

/-- MOVE.W never faults: the immediate's low word into the low word of Dn, and Z (42_data.md R193). -/
theorem execMoveWImm_eq (n : RegNum) (imm : Word) (s : State) :
    execMoveWImm n imm s =
      .next (setZ imm (setD n (overwriteLow s.d[n] (maskTo .word (imm.setWidth 32)) .word) s)) := by
  have h : (maskTo .word (imm.setWidth 32)).extractLsb' 0 16 = imm := by
    apply BitVec.eq_of_toNat_eq
    have := imm.isLt
    simp only [maskTo, field_toNat, BitVec.toNat_setWidth]
    omega
  show Host.Outcome.next (setZ ((maskTo .word (imm.setWidth 32)).extractLsb' 0 16) _) = _
  rw [h]

/-- A branch moves pc and nothing else (41_control.md R165 to R168). -/
theorem branchIf_eq (taken : Bool) (disp : BranchDisp) (s : State) :
    branchIf taken disp s = .next (setPc (if taken = true then branchTarget disp s else s.pc) s) := by
  cases taken <;> rfl

/-! ### Fetching -/

/-- Everything fetching an instruction can do (30_encoding.md R96): the opcode fetch faults, the opcode is unknown,
an extension word faults, or the instruction is there with its words. -/
theorem fetchInstr_cases (s : State) :
    (NoWordAt s s.pc ∧ fetchInstr s = .raised (raise (.addressError s.pc .word .fetch) s.pc s)) ∨
    (∃ op, WordAt s s.pc op ∧ handlerOf s.params op = none ∧
      fetchInstr s = .unknown op s.pc (setPc (s.pc + 2#32) s)) ∨
    (∃ op h, WordAt s s.pc op ∧ handlerOf s.params op = some h ∧
      ((∃ t, fetchExts s.pc (extCount s.params h op) (setPc (s.pc + 2#32) s) = .raised t ∧
          fetchInstr s = .raised t) ∨
        ∃ exts t, fetchExts s.pc (extCount s.params h op) (setPc (s.pc + 2#32) s) = .done exts t ∧
          fetchInstr s = .instr (assemble h op exts) t)) := by
  rcases fetch16_cases s.pc s.pc s with ⟨hb, e⟩ | ⟨hb, e⟩
  · refine .inr ?_
    have hw : WordAt s s.pc (read16 s.mem s.pc.toNat) := ⟨hb, rfl⟩
    cases hh : handlerOf s.params (read16 s.mem s.pc.toNat) with
    | none => exact .inl ⟨_, hw, hh, by simp [fetchInstr, e, hh]⟩
    | some h =>
      refine .inr ⟨_, h, hw, hh, ?_⟩
      cases hx : fetchExts s.pc (extCount s.params h (read16 s.mem s.pc.toNat)) (setPc (s.pc + 2#32) s) with
      | raised t => exact .inl ⟨t, rfl, by simp [fetchInstr, e, hh, hx]⟩
      | done exts t => exact .inr ⟨exts, t, rfl, by simp [fetchInstr, e, hh, hx]⟩
  · exact .inl ⟨hb, by simp [fetchInstr, e]⟩

/-- Fetching extension words changes pc alone: it moves past each word, and they are the words there. -/
theorem fetchExts_done {a0 : Long} {k : Nat} {s t : State} {exts : List Word}
    (h : fetchExts a0 k s = .done exts t) :
    t = setPc (s.pc + BitVec.ofNat 32 (2 * k)) s ∧ exts = streamWords s k s.pc ∧ exts.length = k := by
  induction k generalizing s exts with
  | zero =>
    cases h
    exact ⟨by simp [setPc], rfl, rfl⟩
  | succ k ih =>
    obtain ⟨w, s1, h1, h2⟩ := andThen_eq_done h
    obtain ⟨ws, s2, h3, h4⟩ := andThen_eq_done h2
    cases h4
    obtain ⟨hw, rfl⟩ := nextExt_done h1
    obtain ⟨rfl, rfl, hlen⟩ := ih h3
    refine ⟨?_, ?_, by simpa using hlen⟩
    · have hpc : s.pc + 2#32 + BitVec.ofNat 32 (2 * k) = s.pc + BitVec.ofNat 32 (2 * (k + 1)) := by
        apply BitVec.eq_of_toNat_eq
        simp only [BitVec.toNat_add, BitVec.toNat_ofNat]
        omega
      simp only [setPc, hpc]
    · have hin : inBounds s s.pc .word = true := (inBounds_word s s.pc).mpr hw.1
      have hs : ∀ (j : Nat) (addr : Long), streamWords (setPc (s.pc + 2#32) s) j addr = streamWords s j addr := by
        intro j
        induction j with
        | zero => intro addr; rfl
        | succ j ihj => intro addr; simp only [streamWords, ihj]; rfl
      simp only [streamWords, hin, if_true, hs, hw.2, setPc_pc]

/-- Fetching extension words that faults records the fetch of a word AddressSpace does not hold. -/
theorem fetchExts_raised {a0 : Long} {k : Nat} {s t : State} (h : fetchExts a0 k s = .raised t) :
    ∃ addr pc', s.params.memSize ≤ addr.toNat + 1 ∧
      t = raise (.addressError addr .word .fetch) a0 (setPc pc' s) := by
  induction k generalizing s with
  | zero => cases h
  | succ k ih =>
    rcases andThen_eq_raised h with h1 | ⟨w, s1, h1, h2⟩
    · rcases nextExt_cases a0 s with ⟨-, e⟩ | ⟨hn, e⟩
      · rw [e] at h1; cases h1
      · rw [e] at h1
        cases h1
        exact ⟨s.pc, s.pc, hn, rfl⟩
    · obtain ⟨-, rfl⟩ := nextExt_done h1
      rcases andThen_eq_raised h2 with h3 | ⟨ws, s2, -, h4⟩
      · obtain ⟨addr, pc', hb, rfl⟩ := ih h3
        exact ⟨addr, pc', hb, rfl⟩
      · cases h4

end Sys2Proof.Machine
end

