-- ==== Sys2Proof/Laws/Operands.lean ====
section
/-! SUPPORT. What the resolver can do: the state it leaves, the addresses it gives, and the values of the partial
accesses to a data register. -/

namespace Sys2Proof.Machine

/-! ### The low part of a register -/

/-- `v & mask(n)` as a number (00_scope.md R10). -/
theorem maskTo_toNat (n : Size) (v : Long) : (maskTo n v).toNat = v.toNat % 2 ^ (8 * sizeBytes n) := by
  have := v.isLt
  cases n <;> simp only [maskTo, sizeBytes, BitVec.toNat_setWidth, field_toNat] <;> omega

/-- A partial overwrite as a number (40_effective_address.md R123). -/
theorem overwriteLow_toNat (n : Size) (old v : Long) :
    (overwriteLow old v n).toNat =
      old.toNat / 2 ^ (8 * sizeBytes n) * 2 ^ (8 * sizeBytes n) + v.toNat % 2 ^ (8 * sizeBytes n) := by
  have := old.isLt
  have := v.isLt
  cases n <;> simp only [overwriteLow, sizeBytes, append_toNat, field_toNat] <;> omega

/-! ### Resolve -/

/-- The register step of `(Ar)+` and `-(Ar)` (40_effective_address.md R127, R128); no other mode steps one. -/
def stepRegister (mode reg : RegNum) (n : Size) (s : State) : State :=
  if mode = 3 then setA reg (s.a[reg] + BitVec.ofNat 32 (sizeBytes n)) s
  else if mode = 4 then setA reg (s.a[reg] - BitVec.ofNat 32 (sizeBytes n)) s
  else s

/-- One extension word and then an effect-free end. -/
theorem nextExt_then_done {a0 : Long} {s t : State} {loc : Loc} {f : Word → State → Loc}
    (h : andThen (nextExt a0 s) (fun w s1 => .done (f w s1) s1) = .done loc t) :
    ∃ w, loc = f w t ∧ t = setPc (s.pc + 2#32) s := by
  obtain ⟨w, s1, h1, h2⟩ := andThen_eq_done h
  cases h2
  exact ⟨w, rfl, (nextExt_done h1).2⟩

/-- Two extension words and then an effect-free end. -/
theorem nextExt_twice_done {a0 : Long} {s t : State} {loc : Loc} {f : Word → Word → Loc}
    (h : andThen (nextExt a0 s) (fun hi s1 => andThen (nextExt a0 s1) fun lo s2 => .done (f hi lo) s2) =
      .done loc t) :
    ∃ hi lo, loc = f hi lo ∧ t = setPc (s.pc + 4#32) s := by
  obtain ⟨hi, s1, h1, h2⟩ := andThen_eq_done h
  obtain ⟨lo, rfl, rfl⟩ := nextExt_then_done h2
  obtain ⟨-, rfl⟩ := nextExt_done h1
  exact ⟨hi, lo, rfl, by simp [setPc, BitVec.add_assoc]⟩

/-- Everything `Resolve` leaves when it completes: pc past the words of the mode, the register step of the mode,
and nothing else; a memory address is masked (40_effective_address.md R121, R138). -/
theorem resolve_done {a0 : Long} {mode reg : RegNum} {n : Size} {s t : State} {loc : Loc}
    (h : resolve a0 mode reg n s = .done loc t) :
    t = setPc (s.pc + BitVec.ofNat 32 (extBytes mode reg n)) (stepRegister mode reg n s) ∧
      (mode = 7 → reg.val < 5) ∧ (∀ r, loc = .dataReg r → mode = 0) ∧ (∀ r, loc = .addrReg r → mode = 1) ∧
      ∀ addr, loc = .mem addr → ∃ ea, addr = maskAddr ea := by
  have zero : ∀ s : State, s = setPc (s.pc + BitVec.ofNat 32 0) s := fun s => by simp [setPc]
  fin_cases mode <;> simp only [resolve] at h
  · cases h; exact ⟨zero s, by simp, by simp, by simp, by simp⟩
  · cases h; exact ⟨zero s, by simp, by simp, by simp, by simp⟩
  · cases h; exact ⟨zero s, by simp, by simp, by simp, fun addr h => ⟨_, (Loc.mem.inj h).symm⟩⟩
  · cases h
    exact ⟨zero (setA _ _ s), by simp, by simp, by simp, fun addr h => ⟨_, (Loc.mem.inj h).symm⟩⟩
  · cases h
    exact ⟨zero (setA _ _ s), by simp, by simp, by simp, fun addr h => ⟨_, (Loc.mem.inj h).symm⟩⟩
  · obtain ⟨w, rfl, rfl⟩ := nextExt_then_done h
    exact ⟨rfl, by simp, by simp, by simp, fun addr h => ⟨_, (Loc.mem.inj h).symm⟩⟩
  · obtain ⟨w, rfl, rfl⟩ := nextExt_then_done h
    exact ⟨rfl, by simp, by simp, by simp, fun addr h => ⟨_, (Loc.mem.inj h).symm⟩⟩
  · fin_cases reg <;> simp only [resolveMode7] at h
    · obtain ⟨w, rfl, rfl⟩ := nextExt_then_done h
      exact ⟨rfl, by simp, by simp, by simp, fun addr h => ⟨_, (Loc.mem.inj h).symm⟩⟩
    · obtain ⟨hi, lo, rfl, rfl⟩ := nextExt_twice_done h
      exact ⟨rfl, by simp, by simp, by simp, fun addr h => ⟨_, (Loc.mem.inj h).symm⟩⟩
    · obtain ⟨w, rfl, rfl⟩ := nextExt_then_done h
      exact ⟨rfl, by simp, by simp, by simp, fun addr h => ⟨_, (Loc.mem.inj h).symm⟩⟩
    · obtain ⟨w, rfl, rfl⟩ := nextExt_then_done h
      exact ⟨rfl, by simp, by simp, by simp, fun addr h => ⟨_, (Loc.mem.inj h).symm⟩⟩
    · cases n <;> simp only [resolveImm] at h
      · obtain ⟨w, rfl, rfl⟩ := nextExt_then_done h
        exact ⟨rfl, by simp, by simp, by simp, by simp⟩
      · obtain ⟨w, rfl, rfl⟩ := nextExt_then_done h
        exact ⟨rfl, by simp, by simp, by simp, by simp⟩
      · obtain ⟨hi, lo, rfl, rfl⟩ := nextExt_twice_done h
        exact ⟨rfl, by simp, by simp, by simp, by simp⟩
    · cases h
    · cases h
    · cases h

/-! ### The read and write paths -/

/-- A read changes nothing (40_effective_address.md R139, 20_memory.md R73). -/
theorem readLoc_done {a0 v : Long} {loc : Loc} {n : Size} {s t : State} (h : readLoc a0 loc n s = .done v t) :
    t = s := by
  cases loc with
  | mem addr =>
    simp only [readLoc, memRead] at h
    split at h <;> cases h
    rfl
  | _ => cases h; rfl

/-- Everything a write can leave when it completes: one data register, one address register, or AddressSpace. -/
theorem writeLoc_done {a0 v : Long} {loc : Loc} {n : Size} {s t : State} (h : writeLoc a0 loc n v s = .done () t) :
    (∃ r, loc = .dataReg r ∧ t = setD r (overwriteLow s.d[r] v n) s) ∨
    (∃ r, loc = .addrReg r ∧ t = setA r v s) ∨
    (∃ addr, loc = .mem addr ∧ inBounds s addr n = true ∧ t = setMem (writeSized s.mem addr.toNat v n) s) := by
  cases loc with
  | dataReg r => cases h; exact .inl ⟨r, rfl, rfl⟩
  | addrReg r => cases h; exact .inr (.inl ⟨r, rfl, rfl⟩)
  | mem addr =>
    simp only [writeLoc, memWrite] at h
    split at h
    · cases h; exact .inr (.inr ⟨addr, rfl, by assumption, rfl⟩)
    · cases h
  | imm w => cases h

/-- What was stored at an address and size is read back there (20_memory.md R63 to R65). -/
theorem readSized_writeSized (m : Memory) (addr : Nat) (v : Long) (n : Size) (h : Memory.wf m) :
    readSized (writeSized m addr v n) addr n = maskTo n v := by
  cases n
  · simp only [readSized, writeSized, maskTo, read8_eq, memByte_write8 _ _ _ _ h, if_true]
  · simp only [readSized, writeSized, maskTo, read16_write16 _ _ _ h]
  · exact read32_write32 m addr v h

/-- Every memory write of the machine keeps the canonical form. -/
theorem writeSized_wf (m : Memory) (addr : Nat) (v : Long) (n : Size) (h : Memory.wf m) :
    Memory.wf (writeSized m addr v n) := by
  cases n
  · exact write8_wf _ _ _ h
  · exact write16_wf _ _ _ h
  · exact write32_wf _ _ _ h

end Sys2Proof.Machine
end

