-- ==== Sys2Proof/Laws/PerInstr.lean ====
section
/-! SUPPORT. The statements made constructor by constructor. EncodeLength: an instruction's bytes are as many as
30_encoding.md R91 gives it. -/

namespace Sys2Proof.Laws.EncodeLength

/-- The bytes of an instruction are as many as its length. -/
def Statement (i : Instr) : Prop := (encode i).length = instrLength i

theorem nop : Statement .nop := rfl
theorem rts : Statement .rts := rfl
theorem jsr (target : Long) : Statement (.jsr target) := rfl
theorem bra (disp : BranchDisp) : Statement (.bra disp) := by cases disp <;> rfl
theorem beq (disp : BranchDisp) : Statement (.beq disp) := by cases disp <;> rfl
theorem bne (disp : BranchDisp) : Statement (.bne disp) := by cases disp <;> rfl
theorem moveWImm (n : RegNum) (imm : Word) : Statement (.moveWImm n imm) := rfl
theorem cmpW (x y : RegNum) : Statement (.cmpW x y) := rfl
theorem addW (x y : RegNum) : Statement (.addW x y) := rfl

/-- Every instruction. -/
theorem all (i : Instr) : Statement i := by
  cases i with
  | nop => exact nop
  | rts => exact rts
  | jsr target => exact jsr target
  | bra disp => exact bra disp
  | beq disp => exact beq disp
  | bne disp => exact bne disp
  | moveWImm n imm => exact moveWImm n imm
  | cmpW x y => exact cmpW x y
  | addW x y => exact addW x y

end Sys2Proof.Laws.EncodeLength
end

