-- ==== Sys2Proof/Laws/Session.lean ====
section
/-! SUPPORT. The laws of loading an image: every byte after it, the canonical form and the bound kept; what `trim`
removes and keeps; the text of a header field. -/

namespace Sys2Proof.Machine

theorem loadFrom_wf (image : List Byte) : ∀ (a : Nat) (m : Memory), Memory.wf m → Memory.wf (loadFrom a image m) := by
  induction image with
  | nil => intro a m h; exact h
  | cons b image ih => intro a m h; exact ih _ _ (putByte_wf _ _ _ h)

theorem loadFrom_below (image : List Byte) (bound : Nat) : ∀ (a : Nat) (m : Memory), sparseBelow bound m →
    a + image.length ≤ bound → sparseBelow bound (loadFrom a image m) := by
  induction image with
  | nil => intro a m h _; exact h
  | cons b image ih =>
    intro a m h hb
    simp only [List.length_cons] at hb
    exact ih _ _ (putByte_below _ _ _ _ h (by omega)) (by omega)

/-- Every byte after an image is loaded from an address on (70_reset_and_hazards.md R291). -/
theorem memByte_loadFrom (image : List Byte) : ∀ (a : Nat) (m : Memory) (x : Nat), Memory.wf m →
    memByte (loadFrom a image m) x =
      if a ≤ x ∧ x < a + image.length then image.getD (x - a) 0#8 else memByte m x := by
  induction image with
  | nil => intro a m x h; rw [if_neg (by simp)]; rfl
  | cons b image ih =>
    intro a m x h
    show memByte (loadFrom (a + 1) image (putByte m a b)) x = _
    rw [ih _ _ _ (putByte_wf _ _ _ h), memByte_putByte _ _ _ _ h]
    simp only [List.length_cons]
    by_cases h1 : a + 1 ≤ x ∧ x < a + 1 + image.length
    · rw [if_pos h1, if_pos (by omega), show x - a = (x - (a + 1)) + 1 by omega]
      rfl
    · rw [if_neg h1]
      by_cases h2 : a = x
      · subst h2
        rw [if_pos rfl, if_pos (by omega)]
        simp
      · rw [if_neg h2, if_neg (by omega)]

/-- White space as numbers (70_reset_and_hazards.md R295). -/
theorem isBlank_iff (c : Char) :
    isBlank c = true ↔ c.toNat = 0x20 ∨ (0x09 ≤ c.toNat ∧ c.toNat ≤ 0x0D) := by
  simp only [isBlank, Bool.or_eq_true, beq_iff_eq]
  omega

/-- Everything `trim` does: it takes white space off both ends, and leaves none at either (70_reset_and_hazards.md
R295). -/
theorem trim_spec (t : List Char) : ∃ before after, before ++ trim t ++ after = t ∧
    (∀ c ∈ before ++ after, isBlank c = true) ∧
    ∀ c, (trim t).head? = some c ∨ (trim t).getLast? = some c → isBlank c = false := by
  have back : (trim t) ++ ((t.dropWhile isBlank).reverse.takeWhile isBlank).reverse = t.dropWhile isBlank := by
    rw [trim, ← List.reverse_append, List.takeWhile_append_dropWhile, List.reverse_reverse]
  have first : ∀ (u : List Char) (c : Char), (u.dropWhile isBlank).head? = some c → isBlank c = false := by
    intro u c h
    have := List.head?_dropWhile_not isBlank u
    rw [h] at this
    exact this
  refine ⟨t.takeWhile isBlank, ((t.dropWhile isBlank).reverse.takeWhile isBlank).reverse, ?_, ?_, ?_⟩
  · rw [List.append_assoc, back, List.takeWhile_append_dropWhile]
  · intro c h
    rw [List.mem_append, List.mem_reverse] at h
    exact h.elim List.mem_takeWhile_imp List.mem_takeWhile_imp
  · rintro c (h | h)
    · refine first t c ?_
      rw [← back, List.head?_append, h]
      rfl
    · rw [trim, List.getLast?_reverse] at h
      exact first _ c h

/-- The bytes of a field with their indices, over the addresses they come from. -/
theorem flatMap_zipIdx_map_range (f : Byte → Nat → List Char) (byteAt : Nat → Byte) (lo : Nat) : ∀ n i : Nat,
    (((List.range n).map fun k => byteAt (lo + i + k)).zipIdx i).flatMap (fun bk => f bk.1 bk.2) =
      (List.range' (lo + i) n).flatMap fun a => f (byteAt a) (a - lo)
  | 0, _ => rfl
  | n + 1, i => by
    simp only [List.range_succ_eq_map, List.map_cons, List.zipIdx_cons, List.flatMap_cons, List.range'_succ,
      List.map_map]
    rw [Nat.add_sub_cancel_left, Nat.add_assoc lo i 1, ← flatMap_zipIdx_map_range f byteAt lo n (i + 1)]
    congr 3
    refine List.map_congr_left fun k _ => congrArg byteAt ?_
    show lo + i + (k + 1) = _
    omega

/-- The text of a header field, address by address (70_reset_and_hazards.md R295). -/
theorem fieldText_headerBytes (lo hi L : Nat) (m : Memory) :
    fieldText (headerBytes lo hi L m) = (List.range' lo (min hi L - lo)).flatMap fun a =>
      charText (headerBytes lo hi L m) (memByte m a) (a - lo) :=
  flatMap_zipIdx_map_range (charText (headerBytes lo hi L m)) (memByte m) lo (min hi L - lo) 0

end Sys2Proof.Machine
end

