-- ==== Sys2Proof/Laws/Step.lean ====
section
/-! SUPPORT. What a step can do: one case for each way it ends, from which the properties of every step follow. -/

namespace Sys2Proof.Machine

/-! ### The pieces of a step -/

/-- A step of a running core is what its fetch gives (30_encoding.md R96). -/
theorem step_of_running {s : State} (h : Running s) :
    step s = match fetchInstr s with
      | .instr i s1 => exec i s1
      | .unknown op a0 s1 => .next (unknownOpcode op a0 s1)
      | .raised s1 => .next s1 := by
  obtain ⟨h1, h2, h3⟩ := h
  simp only [step, h1, h2, h3]
  rfl

/-- `exec` always gives a next state (60_exceptions.md R261). -/
theorem exec_next (i : Instr) (s : State) : ∃ t, exec i s = .next t := by
  cases i with
  | rts => rcases execRts_cases s with ⟨-, e⟩ | ⟨-, e⟩ <;> exact ⟨_, e⟩
  | jsr t => rcases execJsr_cases t s with ⟨-, e⟩ | ⟨-, e⟩ <;> exact ⟨_, e⟩
  | moveWImm n imm => exact ⟨_, execMoveWImm_eq n imm s⟩
  | _ => exact ⟨_, rfl⟩

theorem fetchExts_zero (a0 : Long) (s : State) : fetchExts a0 0 s = .done [] s := rfl

/-- One extension word that AddressSpace holds. -/
theorem fetchExts_one {a0 : Long} {s : State} {w : Word} (h : WordAt s s.pc w) :
    fetchExts a0 1 s = .done [w] (setPc (s.pc + 2#32) s) := by
  simp [fetchExts, nextExt_of_wordAt h]

/-- A first extension word that AddressSpace does not hold. -/
theorem fetchExts_outside {a0 : Long} {s : State} {k : Nat} (h : NoWordAt s s.pc) :
    fetchExts a0 (k + 1) s = .raised (raise (.addressError s.pc .word .fetch) a0 s) := by
  simp [fetchExts, nextExt_of_noWordAt h]

/-- pc past one word and `k` more. -/
theorem pc_past (pc : Long) (k : Nat) : pc + 2#32 + BitVec.ofNat 32 (2 * k) = pc + BitVec.ofNat 32 (2 * (k + 1)) := by
  apply BitVec.eq_of_toNat_eq
  simp only [BitVec.toNat_add, BitVec.toNat_ofNat]
  omega

/-- The first words of a fetch stream are words of AddressSpace. -/
theorem wordAt_of_prefix {K : Nat} {ws : List Word} {s : State} {addr : Long} (h : ws <+: streamWords s K addr) :
    ∀ k (hk : k < ws.length), WordAt s (addr + BitVec.ofNat 32 (2 * k)) ws[k] := by
  induction K generalizing ws addr with
  | zero => simp [streamWords] at h; subst h; simp
  | succ K ih =>
    simp only [streamWords] at h
    split at h
    · rename_i hb
      match ws, h with
      | [], _ => simp
      | w :: ws, h =>
        rw [List.cons_prefix_cons] at h
        intro k hk
        cases k with
        | zero =>
          simp only [Nat.mul_zero, List.getElem_cons_zero]
          rw [BitVec.add_zero]
          exact ⟨(inBounds_word _ _).mp hb, h.1.symm⟩
        | succ k =>
          have := ih h.2 k (by simpa using hk)
          rw [pc_past] at this
          exact this
    · simp at h; subst h; simp

/-- Fetching extension words that AddressSpace holds. -/
theorem fetchExts_of_words {a0 : Long} {ws : List Word} {s : State}
    (h : ∀ k (hk : k < ws.length), WordAt s (s.pc + BitVec.ofNat 32 (2 * k)) ws[k]) :
    fetchExts a0 ws.length s = .done ws (setPc (s.pc + BitVec.ofNat 32 (2 * ws.length)) s) := by
  induction ws generalizing s with
  | nil => simp [fetchExts, setPc]
  | cons w ws ih =>
    have h0 := h 0 (by simp)
    simp only [Nat.mul_zero, List.getElem_cons_zero] at h0
    rw [BitVec.add_zero] at h0
    have hx := @ih (setPc (s.pc + 2#32) s) (by
      intro k hk
      have := h (k + 1) (by simpa using hk)
      rw [← pc_past] at this
      exact this)
    simp only [List.length_cons, fetchExts]
    rw [nextExt_of_wordAt h0, andThen_done, hx, andThen_done, setPc_pc, pc_past]
    rfl

/-- What a branch's opcode word is. -/
theorem handlerOf_bra (p : CoreParams) (d : Byte) : handlerOf p (0x6000#16 ||| d.setWidth 16) = some .bra := by
  have := d.isLt
  rw [handlerOf_iff]
  show (BitVec.ofNat 16 (256 * 0x60) ||| d.setWidth 16).toNat / 256 = 0x60
  rw [branchWord_toNat 0x60 d (by omega)]
  omega

theorem handlerOf_beq (p : CoreParams) (d : Byte) : handlerOf p (0x6700#16 ||| d.setWidth 16) = some .beq := by
  have := d.isLt
  rw [handlerOf_iff]
  show (BitVec.ofNat 16 (256 * 0x67) ||| d.setWidth 16).toNat / 256 = 0x67
  rw [branchWord_toNat 0x67 d (by omega)]
  omega

theorem handlerOf_bne (p : CoreParams) (h : p.hasBne = true) (d : Byte) :
    handlerOf p (0x6600#16 ||| d.setWidth 16) = some .bne := by
  have := d.isLt
  rw [handlerOf_iff]
  refine ⟨h, ?_⟩
  show (BitVec.ofNat 16 (256 * 0x66) ||| d.setWidth 16).toNat / 256 = 0x66
  rw [branchWord_toNat 0x66 d (by omega)]
  omega

/-! ### SetZ, bit by bit -/

/-- SetZ replaces bit 2 of SR and no other (42_data.md R192). -/
theorem srWithZ_getLsbD (sr : Word) (z : Bool) (k : Nat) :
    (srWithZ sr z).getLsbD k = if k = 2 then z else sr.getLsbD k := by
  rcases Nat.lt_or_ge k 16 with hk | hk
  · cases z
    · simp only [srWithZ, Bool.false_eq_true, if_false, BitVec.getLsbD_and]
      have : ∀ k : Fin 16, (0xFFFB#16).getLsbD k = (k.val != 2) := by decide
      rw [this ⟨k, hk⟩]
      by_cases h : k = 2 <;> simp [h]
    · simp only [srWithZ, if_true, BitVec.getLsbD_or]
      have : ∀ k : Fin 16, (0x0004#16).getLsbD k = (k.val == 2) := by decide
      rw [this ⟨k, hk⟩]
      by_cases h : k = 2 <;> simp [h]
  · rw [BitVec.getLsbD_of_ge _ _ hk, BitVec.getLsbD_of_ge _ _ hk, if_neg (by omega)]

/-! ### What no instruction does -/

/-- A state with the core, the parameters, the log and video memory of another: what every instruction leaves but
for a fault. -/
structure SameCore (s t : State) : Prop where
  params : t.params = s.params
  ready : t.ready = s.ready
  halted : t.halted = s.halted
  log : t.log = s.log
  video : t.video = s.video

/-- What any instruction leaves: the core and its configuration; a memory that is the old one or, at a JSR, holds
the return address in the four bytes in bounds below the old top of the stack; and either the old fault state or
a fault at its stack access, recorded against its own opcode address. -/
theorem exec_leaves {i : Instr} {s t : State} (h : exec i s = .next t) :
    SameCore s t ∧
    (t.mem = s.mem ∨ ((maskAddr (s.a[spReg] - 4#32)).toNat + 3 < s.params.memSize ∧
      t.mem = write32 s.mem (maskAddr (s.a[spReg] - 4#32)).toNat s.pc ∧ ∃ target, i = .jsr target)) ∧
    ((t.faulted = s.faulted ∧ t.fault = s.fault) ∨
      ∃ ea k, (k = .read ∨ k = .write) ∧ s.params.memSize ≤ (maskAddr ea).toNat + 3 ∧
        FaultedBy t (.addressError (maskAddr ea) .long k) (s.pc - BitVec.ofNat 32 (instrLength i))) := by
  have eq : ∀ {u : State}, exec i s = .next u → u = t := by
    intro u e
    rw [e] at h
    cases h
    rfl
  cases i with
  | nop => rw [← eq rfl]; exact ⟨⟨rfl, rfl, rfl, rfl, rfl⟩, .inl rfl, .inl ⟨rfl, rfl⟩⟩
  | rts =>
    rcases execRts_cases s with ⟨-, e⟩ | ⟨hb, e⟩
    · rw [← eq e]; exact ⟨⟨rfl, rfl, rfl, rfl, rfl⟩, .inl rfl, .inl ⟨rfl, rfl⟩⟩
    · cases (show execRts s = _ from h).symm.trans e
      exact ⟨⟨rfl, rfl, rfl, rfl, rfl⟩, .inl rfl, .inr ⟨_, _, .inl rfl, hb, rfl, rfl⟩⟩
  | jsr target =>
    rcases execJsr_cases target s with ⟨hb, e⟩ | ⟨hb, e⟩ <;> cases (show execJsr target s = _ from h).symm.trans e
    · exact ⟨⟨rfl, rfl, rfl, rfl, rfl⟩, .inr ⟨hb, rfl, target, rfl⟩, .inl ⟨rfl, rfl⟩⟩
    · exact ⟨⟨rfl, rfl, rfl, rfl, rfl⟩, .inl rfl, .inr ⟨_, _, .inr rfl, hb, rfl, rfl⟩⟩
  | bra disp => rw [← eq (branchIf_eq true disp s)]; exact ⟨⟨rfl, rfl, rfl, rfl, rfl⟩, .inl rfl, .inl ⟨rfl, rfl⟩⟩
  | beq disp => rw [← eq (branchIf_eq (zFlag s) disp s)]; exact ⟨⟨rfl, rfl, rfl, rfl, rfl⟩, .inl rfl, .inl ⟨rfl, rfl⟩⟩
  | bne disp => rw [← eq (branchIf_eq (!zFlag s) disp s)]; exact ⟨⟨rfl, rfl, rfl, rfl, rfl⟩, .inl rfl, .inl ⟨rfl, rfl⟩⟩
  | moveWImm n imm => rw [← eq (execMoveWImm_eq n imm s)]; exact ⟨⟨rfl, rfl, rfl, rfl, rfl⟩, .inl rfl, .inl ⟨rfl, rfl⟩⟩
  | cmpW x y => rw [← eq rfl]; exact ⟨⟨rfl, rfl, rfl, rfl, rfl⟩, .inl rfl, .inl ⟨rfl, rfl⟩⟩
  | addW x y => rw [← eq rfl]; exact ⟨⟨rfl, rfl, rfl, rfl, rfl⟩, .inl rfl, .inl ⟨rfl, rfl⟩⟩

/-! ### Every way a step ends -/

/-- Everything a step that gives a next state can have done: nothing on a stopped core; a fetch that AddressSpace
does not hold; the signal of an unknown word; or an instruction, with pc past its words and nothing else moved
before it. -/
theorem step_cases {s t : State} (h : step s = .next t) :
    (s.ready = true ∧ Stopped s ∧ t = s) ∨
    (Running s ∧ ∃ addr pc', s.params.memSize ≤ addr.toNat + 1 ∧
      t = raise (.addressError addr .word .fetch) s.pc (setPc pc' s)) ∨
    (Running s ∧ ∃ op, WordAt s s.pc op ∧ handlerOf s.params op = none ∧
      t = unknownOpcode op s.pc (setPc (s.pc + 2#32) s)) ∨
    (Running s ∧ ∃ op k exts, WordAt s s.pc op ∧ handlerOf s.params op = some k ∧
      exts.length = extCount s.params k op ∧
      exec (assemble k op exts) (setPc (s.pc + BitVec.ofNat 32 (2 * exts.length + 2)) s) = .next t) := by
  by_cases hr : s.ready = false
  · simp [step, hr] at h
  by_cases hs : (s.faulted || s.halted) = true
  · simp only [step, hr, hs, if_true] at h
    cases h
    exact .inl ⟨by simpa using hr, by simpa using hs, rfl⟩
  have hrun : Running s := by
    simp only [Bool.or_eq_true, not_or, Bool.not_eq_true] at hs
    exact ⟨by simpa using hr, hs.1, hs.2⟩
  rw [step_of_running hrun] at h
  rcases fetchInstr_cases s with ⟨hn, e⟩ | ⟨op, hw, hh, e⟩ | ⟨op, k, hw, hh, ⟨t', hx, e⟩ | ⟨exts, t', hx, e⟩⟩
  · rw [e] at h
    cases h
    exact .inr (.inl ⟨hrun, s.pc, s.pc, hn, rfl⟩)
  · rw [e] at h
    cases h
    exact .inr (.inr (.inl ⟨hrun, op, hw, hh, rfl⟩))
  · rw [e] at h
    cases h
    obtain ⟨addr, pc', hb, rfl⟩ := fetchExts_raised hx
    exact .inr (.inl ⟨hrun, addr, pc', hb, rfl⟩)
  · rw [e] at h
    obtain ⟨rfl, -, hl⟩ := fetchExts_done hx
    refine .inr (.inr (.inr ⟨hrun, op, k, exts, hw, hh, hl, ?_⟩))
    have hpc : s.pc + 2#32 + BitVec.ofNat 32 (2 * extCount s.params k op) =
        s.pc + BitVec.ofNat 32 (2 * exts.length + 2) := by
      apply BitVec.eq_of_toNat_eq
      simp only [BitVec.toNat_add, BitVec.toNat_ofNat, hl]
      omega
    rw [← hpc]
    exact h

end Sys2Proof.Machine
end

