-- ==== Sys2Proof/Tests/Slice0.lean ====
section
/-! SUPPORT. The model's own tests: ill-formed instructions refused, words written out from 30_encoding.md decoded,
the vectors of 95_test_vectors.md as one step each, and a witness for every statement that has hypotheses. Every
expected value is the spec's. -/

namespace Sys2Proof.Tests

open Sys2Proof Sys2Proof.Machine

/-! ### States -/

/-- A reset state with bytes in memory and a program counter. -/
def at_ (pc a : Nat) (bytes : List Nat) : State :=
  { State.reset with mem := loadFrom a (bytes.map (BitVec.ofNat 8)) [], pc := BitVec.ofNat 32 pc }

/-- The code of the vectors of 95_test_vectors.md L2.4 and L2.5: bytes at a0 = 0x001000. -/
def code (bytes : List Nat) : State := at_ 0x1000 0x1000 bytes

/-- A machine of 16 bytes, so that its bounds are near. -/
def small (pc : Nat) (bytes : List Nat) : State :=
  { at_ pc 0 bytes with params := { CoreParams.default with memSize := 16 } }

def withD (r : RegNum) (v : Long) (s : State) : State := { s with d := s.d.set r v }

def withA (r : RegNum) (v : Long) (s : State) : State := { s with a := s.a.set r v }

def withZ (s : State) : State := { s with sr := 0x0004#16 }

def withEscape (s : State) : State := { s with params := { s.params with branchD8Zero := .wordEscape } }

def withBne (s : State) : State := { s with params := { s.params with hasBne := true } }

def withHalt (s : State) : State := { s with params := { s.params with unknownPolicy := .halt } }

/-- The next state; where there is none, a state that no test expects. -/
def after : Host.Outcome State Fault Refusal → State
  | .next s => s
  | .fault _ => { State.reset with ready := false }
  | .refused _ => { State.reset with ready := false }

/-! ### WellFormed: an ill-formed term for each check -/

theorem test_wf_refuses_escape_word_under_zero_offset :
    Instr.wf CoreParams.default (.bra (.escape 0x0010#16)) = false := by decide

theorem test_wf_refuses_zero_byte_under_word_escape :
    Instr.wf { CoreParams.default with branchD8Zero := .wordEscape } (.beq (.d8 0#8)) = false := by decide

theorem test_wf_refuses_bne_when_absent : Instr.wf CoreParams.default (.bne (.d8 0xFC#8)) = false := by decide

theorem test_wf_refuses_bne_escape_under_zero_offset : Instr.wf tableParams (.bne (.escape 0#16)) = false := by decide

/-! ### Decode: the words of 95_test_vectors.md L2.3 to L2.5 -/

theorem test_decode_nop : decode CoreParams.default [0x4E#8, 0x71#8] = .ok (.nop, []) := by rfl

theorem test_decode_rts : decode CoreParams.default [0x4E#8, 0x75#8] = .ok (.rts, []) := by rfl

theorem test_decode_jsr :
    decode CoreParams.default [0x4E#8, 0xB9#8, 0x00#8, 0x01#8, 0x20#8, 0x00#8] = .ok (.jsr 0x00012000#32, []) := by rfl

theorem test_decode_bra : decode CoreParams.default [0x60#8, 0xFE#8] = .ok (.bra (.d8 0xFE#8), []) := by rfl

theorem test_decode_bra_escape :
    decode { CoreParams.default with branchD8Zero := .wordEscape } [0x60#8, 0x00#8, 0xFF#8, 0xFE#8] =
      .ok (.bra (.escape 0xFFFE#16), []) := by rfl

theorem test_decode_beq : decode CoreParams.default [0x67#8, 0x06#8] = .ok (.beq (.d8 0x06#8), []) := by rfl

theorem test_decode_bne : decode tableParams [0x66#8, 0xFC#8] = .ok (.bne (.d8 0xFC#8), []) := by rfl

/-- 0b0011_101_000_111_100: n = 5. -/
theorem test_decode_move :
    decode CoreParams.default [0b00111010#8, 0b00111100#8, 0x12#8, 0x34#8] = .ok (.moveWImm 5 0x1234#16, []) := by rfl

/-- 0b1011_101_001_000_111: x = 5, y = 7. -/
theorem test_decode_cmp : decode CoreParams.default [0b10111010#8, 0b01000111#8] = .ok (.cmpW 5 7, []) := by rfl

/-- 0b1101_110_001_000_111: x = 6, y = 7. -/
theorem test_decode_add : decode CoreParams.default [0b11011100#8, 0b01000111#8] = .ok (.addW 6 7, []) := by rfl

/-- The neighbours of admitted words are unknown (L2.3). -/
theorem test_decode_unknown_neighbours : [0x4E70#16, 0x4E73#16, 0x4EB8#16, 0x4EF9#16, 0x6100#16, 0x6200#16, 0x66FC#16,
    0x303D#16, 0x3038#16, 0x3008#16, 0x3000#16, 0xB048#16, 0xD048#16, 0xD050#16, 0x0000#16, 0xFFFF#16, 0x4AFC#16,
    0xA000#16, 0xF000#16].all (fun w => (handlerOf CoreParams.default w).isNone) = true := by decide

/-- Every row of the opcode table, numbered as the table numbers it. -/
theorem test_table_words :
    [0x4E71, 0x4E75, 0x4EB9, 0x6002, 0x6706, 0x66FC, 0x363C, 0xB041, 0xD041].map (decodeTableWord 16) =
      [some .nop, some .rts, some (.jsr 0#32), some (.bra (.d8 2#8)), some (.beq (.d8 6#8)), some (.bne (.d8 0xFC#8)),
        some (.moveWImm 3 0#16), some (.cmpW 0 1), some (.addW 0 1)] := by decide

theorem test_table_word_long : decodeTableWord 48 0x200000014EB9 = some (.jsr 0x00012000#32) := by decide

theorem test_fetch_word_runs_next :
    (after (step (State.reset.withFetchWord 16 0x60FE))).pc = 0#32 ∧
      (after (step (State.reset.withFetchWord 16 0x66FC))).pc = 0xFFFFFFFE#32 ∧
      (after (step (State.reset.withFetchWord 48 0x200000014EB9))).pc = 0x00012000#32 := by decide

theorem test_instr_text : instrText 0x1000#32 (.moveWImm 3 0x12AB#16) = "MOVE.W #0x12AB,D3".toList := by decide

/-! ### The instructions: one step each (95_test_vectors.md L2.4, L2.5) -/

/-- B1. -/
theorem test_nop : after (step (code [0x4E, 0x71])) = { code [0x4E, 0x71] with pc := 0x1002#32 } := by decide

/-- B18: the pop address is masked, the popped value is not. -/
theorem test_rts : (let t := after (step (withA 7 0x0100FFFC#32 { at_ 0x1000 0x1000 [0x4E, 0x75] with
      mem := loadFrom 0xFFFC [0#8, 0#8, 0x10#8, 6#8] (code [0x4E, 0x75]).mem }));
    t.pc = 0x1006#32 ∧ t.a[7] = 0x01010000#32) := by decide

/-- P6: the pop at MEM_SIZE reads the bytes at address 0. -/
theorem test_rts_wraps_by_the_mask : (let t := after (step (withA 7 0x01000000#32 { at_ 0x200 0x200 [0x4E, 0x75] with
      mem := loadFrom 0 [0#8, 0xFF#8] (at_ 0 0x200 [0x4E, 0x75]).mem }));
    t.pc = 0x00FF0000#32 ∧ t.a[7] = 0x01000004#32) := by decide

/-- B13. -/
theorem test_jsr : (let t := after (step (withA 7 0x10000#32 (code [0x4E, 0xB9, 0, 0, 0x20, 0])));
    t.pc = 0x2000#32 ∧ t.a[7] = 0xFFFC#32 ∧ debugRead 0xFFFC 4 t = [0#8, 0#8, 0x10#8, 6#8]) := by decide

/-- B15: the push faults, and the record names the JSR. -/
theorem test_jsr_push_fault : (let t := after (step (withA 7 2#32 (code [0x4E, 0xB9, 0, 0, 0x20, 0])));
    t.faulted = true ∧ t.fault = some ⟨.addressError 0xFFFFFE#32 .long .write, 0x1000#32⟩) := by decide

/-- B4. -/
theorem test_bra : (after (step (code [0x60, 0x80]))).pc = 0xF82#32 := by decide

/-- B8. -/
theorem test_bra_escape : (after (step (withEscape (code [0x60, 0, 0, 0x10])))).pc = 0x1012#32 := by decide

/-- B9. -/
theorem test_beq : (after (step (withZ (code [0x67, 6])))).pc = 0x1008#32 ∧ (after (step (code [0x67, 6]))).pc = 0x1002#32 := by
  decide

/-- B10: the escape word is consumed although the branch is not taken. -/
theorem test_beq_escape : (after (step (withEscape (code [0x67, 0, 0, 0x10])))).pc = 0x1004#32 := by decide

/-- B11. -/
theorem test_bne : (after (step (withBne (code [0x66, 0xFC])))).pc = 0xFFE#32 ∧
    (after (step (withZ (withBne (code [0x66, 0xFC]))))).pc = 0x1002#32 := by decide

/-- B12. -/
theorem test_bne_absent : (after (step (code [0x66, 0xFC]))).log = [.unknownInstruction 0x66FC#16 0x1000#32] := by decide

/-- A1. -/
theorem test_move : (let t := after (step (withD 3 0xFFFFFFFF#32 (code [0x36, 0x3C, 0, 0])));
    t.d[3] = 0xFFFF0000#32 ∧ t.sr = 0x0004#16 ∧ t.pc = 0x1004#32) := by decide

/-- A3: no sign flag. -/
theorem test_move_clears_z : (let t := after (step (withZ (code [0x30, 0x3C, 0x80, 0])));
    t.d[0] = 0x8000#32 ∧ t.sr = 0#16) := by decide

/-- A5: bits 31:16 are ignored. -/
theorem test_cmp : (let t := after (step (withD 0 0x11115555#32 (withD 1 0x22225555#32 (code [0xB0, 0x41]))));
    t.sr = 0x0004#16 ∧ t.d[0] = 0x11115555#32 ∧ t.d[1] = 0x22225555#32) := by decide

/-- A6. -/
theorem test_cmp_unequal : (after (step (withZ (withD 0 1#32 (withD 1 2#32 (code [0xB0, 0x41])))))).sr = 0#16 := by decide

/-- A10: no carry into bit 16. -/
theorem test_add : (let t := after (step (withD 0 0xABCD8000#32 (withD 1 0x8000#32 (code [0xD0, 0x41]))));
    t.d[0] = 0xABCD0000#32 ∧ t.sr = 0x0004#16) := by decide

/-- A11: a source that is also the destination. -/
theorem test_add_doubles : (let t := after (step (withD 0 0x12340001#32 (code [0xD0, 0x40])));
    t.d[0] = 0x12340002#32 ∧ t.sr = 0#16) := by decide

/-! ### Memory, the resolver, events, reset, the compositor -/

/-- M6: a size-1 write reaches the byte after its address. -/
theorem test_write_byte_lane :
    debugRead 0x100 2 { State.reset with mem := write8 (loadFrom 0x100 [0x11#8, 0x22#8] []) 0x100 0xAA#8 } =
      [0x11#8, 0xAA#8] := by decide

/-- E15: scale 2 of D2 = -2; E12: the sum is masked. -/
theorem test_resolve_index :
    resolve 0#32 6 0 .word (withA 0 0x1000#32 (withD 2 0xFFFFFFFE#32 (at_ 0x400 0x400 [0x22, 0]))) =
      .done (.mem 0xFFC#32) (withA 0 0x1000#32 (withD 2 0xFFFFFFFE#32 (at_ 0x402 0x400 [0x22, 0]))) := by decide

/-- E20: the base of mode 7.3 is the pc past its word. -/
theorem test_resolve_pc_index :
    resolve 0#32 7 3 .word (withD 1 4#32 (at_ 0x400 0x400 [0x10, 4])) =
      .done (.mem 0x40A#32) (withD 1 4#32 (at_ 0x402 0x400 [0x10, 4])) := by decide

/-- F2: halt, and then nothing. -/
theorem test_unknown_halts : (let t := after (step (withHalt (code [0x4E, 0x70])));
    t.halted = true ∧ t.pc = 0x1002#32 ∧ after (step t) = t) := by decide

/-- F4: fetch is not masked. -/
theorem test_fetch_fault : (after (step (at_ 0x00FFFFFF 0 []))).fault =
    some ⟨.addressError 0x00FFFFFF#32 .word .fetch, 0x00FFFFFF#32⟩ := by decide

/-- R2 (with an eight-byte image) and R1. -/
theorem test_reset : (hostReset ResetParams.chosen [0#8, 0xFF#8, 0#8, 0#8, 0#8, 0#8, 2#8, 0#8] State.reset).1.pc = 0x200#32 ∧
    hostReset ResetParams.chosen (List.replicate 7 0#8) State.reset = (State.reset, some (.imageTooShort 7)) := by decide

/-- A reset with an image of zeros, from any processor state, is the state after reset (log 6). -/
theorem test_reset_of_a_zero_image :
    hostReset ResetParams.chosen (List.replicate 8 0#8)
      (createSession CoreParams.default State.reset.video (withZ (withD 3 7#32 (code [0x4E, 0x71])))) =
        (State.reset, none) := by decide

/-- Memory with a text from an address on. -/
def texted (a : Nat) (text : String) : State := at_ 0 a (text.toList.map Char.toNat)

/-- L1-12; and leading white space is trimmed too. -/
theorem test_region : ["J   ", "U   ", "E   ", "JU  ", "UE  ", "JUE ", " J  "].map
      (fun f => headerRegion 0x200 (texted 0x1F0 f)) =
    ["Japan", "USA", "Europe", "USA + Japan", "USA + Europe", "JUE", "Japan"].map String.toList := by decide

/-- R5. -/
theorem test_title : headerTitle 0x200 (texted 0x120 "SONIC THE HEDGEHOG                              ") =
    "SONIC THE HEDGEHOG".toList := by decide

/-- R6: an image of 0x130 bytes. -/
theorem test_header_of_a_short_image :
    headerTitle 0x130 (texted 0x120 "SONIC THE HEDGEHOG") = "SONIC THE HEDGEH".toList ∧
      headerRegion 0x130 (texted 0x1F0 "J   ") = [] := by decide

/-- The defaults of 00_scope.md R6. -/
theorem test_video_defaults :
    (let p : VideoParams :=
        { regHscrollHi := 0, regHscrollLo := 1, regVscroll := 2, regMapbase := 3, tilemapBlock := 0x400
          gridW := 40, gridH := 28, scale := 2, vramSize := 0x800, vsramEntries := 2, vsramWidth := 4 };
      p.vregCount = 24 ∧ p.mapW = 40 ∧ p.mapH = 28 ∧ p.channelRounding = .floor) := by decide

/-- The video setup of L2.7. -/
def vp : VideoParams where
  vregCount := 24
  regHscrollHi := 3
  regHscrollLo := 4
  regVscroll := 5
  regMapbase := 2
  tilemapBlock := 0x400
  gridW := 1
  gridH := 1
  mapW := 1
  mapH := 1
  scale := 1
  vramSize := 0x800
  vsramEntries := 2
  vsramWidth := 4
  channelRounding := .floor

/-- The video memory of L2.7. -/
def video : Video where
  vram := [(0x20, 0x80#8), (0x21, 0x40#8), (0x30, 0x20#8), (0x31, 0x10#8), (0x400, 0x20#8), (0x401, 1#8)]
  cram := ((((Vector.replicate 64 0#9).set 17 7#9).set 18 0x38#9).set 20 0xC0#9).set 24 0x55#9
  vsram := []
  vreg := [(2, 1#8)]

/-- V1. -/
theorem test_render : (renderFrame vp video).getD 0 [] =
    [some ⟨255#8, 0#8, 0#8⟩, some ⟨0#8, 255#8, 0#8⟩, some ⟨0#8, 0#8, 255#8⟩, some ⟨182#8, 72#8, 85#8⟩, none, none, none,
      none] := by decide +kernel

/-- V12: hscroll 10 and vscroll 11. -/
theorem test_render_scrolled :
    (renderFrame vp (vregWrite vp 5 0x0B (vregWrite vp 4 0x0A video))).getD 5 [] =
      [some ⟨0#8, 0#8, 255#8⟩, some ⟨182#8, 72#8, 85#8⟩, none, none, none, none, some ⟨255#8, 0#8, 0#8⟩,
        some ⟨0#8, 255#8, 0#8⟩] := by decide +kernel

/-! ### Witnesses: concrete states that meet the hypotheses of each statement, per clause at a boundary -/

theorem witness_DecodeOfEncodeIsTheInstruction :
    Instr.wf { tableParams with branchD8Zero := .wordEscape } (.bne (.escape 0x8000#16)) = true ∧
      Instr.wf CoreParams.default (.bra (.d8 0#8)) = true := by decide

theorem witness_DecodedBytesAreTheEncoding :
    decode CoreParams.default [0x67#8, 0x06#8, 0x4E#8] = .ok (.beq (.d8 0x06#8), [0x4E#8]) := by rfl

theorem witness_NoWordMatchesTwoRows : (⟨0xFF00#16, 0x6600#16, .bne⟩ : DispatchRow) ∈ dispatchRows true ∧
    (⟨0xFF00#16, 0x6600#16, .bne⟩ : DispatchRow).hits 0x66FF#16 = true := by decide

/-- OpcodeMapByNibble: both sides of its clauses at the ends of a row. -/
theorem witness_OpcodeMapByNibble : handlerOf tableParams 0x66FF#16 = some .bne ∧
    handlerOf CoreParams.default 0x66FF#16 = none ∧ handlerOf CoreParams.default 0x3E3C#16 = some .moveWImm ∧
    handlerOf CoreParams.default 0xBE47#16 = some .cmpW := by decide

/-- Every statement that asks for a canonical memory. -/
theorem witness_WordAccessIsBigEndian_and_the_other_memory_statements :
    Memory.wf [(2, 0x12#8), (3, 0x34#8), (0xFFFFFF, 1#8)] := by decide

/-- AccessReadsAndWritesInBounds: the last word and the last long in bounds, and the first of each size out. -/
theorem witness_AccessReadsAndWritesInBounds :
    (14#32).toNat + 1 < (small 0 [1]).params.memSize ∧ (12#32).toNat + 3 < (small 0 [1]).params.memSize ∧
      (small 0 [1]).params.memSize < (15#32).toNat + max (sizeBytes .byte) 2 ∧
      (small 0 [1]).params.memSize < (15#32).toNat + max (sizeBytes .word) 2 ∧
      (small 0 [1]).params.memSize < (13#32).toNat + max (sizeBytes .long) 2 ∧ Memory.wf (small 0 [1]).mem := by decide

/-- E12: an address the mask cuts. -/
theorem witness_ResolvedAddressesAreMasked :
    resolve 0#32 5 1 .word (withA 1 0x01002000#32 (at_ 0x400 0x400 [0x7F, 0xFF])) =
      .done (.mem 0x9FFF#32) (withA 1 0x01002000#32 (at_ 0x402 0x400 [0x7F, 0xFF])) := by decide

/-- ResolveAdvancesPcByItsWords: a mode of two words, a read and a write that complete, and a register of no mode. -/
theorem witness_ResolveAdvancesPcByItsWords :
    resolve 0#32 7 1 .byte (small 0 [0, 0, 0, 4]) = .done (.mem 4#32) (small 4 [0, 0, 0, 4]) ∧
      readLoc 0#32 (.mem 0#32) .word (small 0 [1, 2]) = .done 0x0102#32 (small 0 [1, 2]) ∧
      writeLoc 0#32 (.mem 0#32) .word 0x0102#32 (small 0 []) = .done () (small 0 [1, 2]) ∧ 5 ≤ (7 : RegNum).val := by
  decide

/-- The last word in AddressSpace, and the first that is not (as in E26). -/
theorem witness_DisplacementModesAddASignedWord :
    WordAt (small 14 (List.replicate 14 0 ++ [0xFF, 0xFE])) (small 14 (List.replicate 14 0 ++ [0xFF, 0xFE])).pc
      0xFFFE#16 ∧
    NoWordAt (small 15 []) (small 15 []).pc := by decide

/-- E14 and E15: both files of index registers; and no word at pc. -/
theorem witness_IndexedModesAddAScaledRegister : WordAt (small 0 [0x90, 0x10]) 0#32 0x9010#16 ∧
    (1 : RegNum).val = (0x9010#16).toNat / 2 ^ 12 % 8 ∧ WordAt (small 0 [0x22, 0]) 0#32 0x2200#16 ∧
    (2 : RegNum).val = (0x2200#16).toNat / 2 ^ 12 % 8 ∧ NoWordAt (small 15 []) (small 15 []).pc := by decide

/-- Two words, the first word alone, and none. -/
theorem witness_AbsoluteAndImmediateModes :
    WordAt (small 12 (List.replicate 12 0 ++ [0x12, 0xFF, 0, 1])) (12#32) 0x12FF#16 ∧
      WordAt (small 12 (List.replicate 12 0 ++ [0x12, 0xFF, 0, 1])) (12#32 + 2#32) 0x0001#16 ∧
      WordAt (small 14 (List.replicate 14 0 ++ [0x12, 0xFF])) (14#32) 0x12FF#16 ∧
      NoWordAt (small 14 (List.replicate 14 0 ++ [0x12, 0xFF])) (14#32 + 2#32) ∧
      NoWordAt (small 15 []) (small 15 []).pc := by decide

/-- InvalidAddressingModesAreRaised: the first register of no mode, and a running state that meets the invariant. -/
theorem witness_InvalidAddressingModesAreRaised : 5 ≤ (5 : RegNum).val ∧ (small 0 [0x4E, 0x71]).Inv ∧
    Running (small 0 [0x4E, 0x71]) ∧ (after (step (small 0 [0x4E, 0x71]))).pc = 2#32 :=
  ⟨by decide, ⟨by decide, by decide, by decide, by decide⟩, by decide, by decide⟩

/-- E24: (A0)+ read and then written; and the same for -(A0). -/
theorem witness_ReadThenWriteResolvesOnce :
    resolve 0#32 3 0 .word (small 0 []) = .done (.mem 0#32) (withA 0 2#32 (small 0 [])) ∧
      readLoc 0#32 (.mem 0#32) .word (withA 0 2#32 (small 0 [])) = .done 0#32 (withA 0 2#32 (small 0 [])) ∧
      writeLoc 0#32 (.mem 0#32) .word 0x0102#32 (withA 0 2#32 (small 0 [])) =
        .done () (withA 0 2#32 (small 0 [1, 2])) ∧
      resolve 0#32 4 1 .byte (withA 1 1#32 (small 0 [])) = .done (.mem 0#32) (withA 1 0#32 (small 0 [])) ∧
      readLoc 0#32 (.mem 0#32) .byte (withA 1 0#32 (small 0 [])) = .done 0#32 (withA 1 0#32 (small 0 [])) ∧
      writeLoc 0#32 (.mem 0#32) .byte 5#32 (withA 1 0#32 (small 0 [])) = .done () (withA 1 0#32 (small 0 [0, 5])) := by
  decide

theorem witness_ReadLocGivesWhatWriteLocStored :
    writeLoc 0#32 (.mem 12#32) .long 0x01020304#32 (small 0 []) =
      .done () (small 0 (List.replicate 12 0 ++ [1, 2, 3, 4])) ∧ Memory.wf (small 0 []).mem := by decide

/-- The last long in bounds and the first out of bounds. -/
theorem witness_RtsPopsThePc :
    (maskAddr (withA 7 0xFF00000C#32 (small 0 [])).a[spReg]).toNat + 3 < (small 0 []).params.memSize ∧
      (small 0 []).params.memSize ≤ (maskAddr (withA 7 13#32 (small 0 [])).a[spReg]).toNat + 3 := by decide

theorem witness_JsrPushesAndJumps :
    (maskAddr ((withA 7 16#32 (small 0 [])).a[spReg] - 4#32)).toNat + 3 < (small 0 []).params.memSize ∧
      (small 0 []).params.memSize ≤ (maskAddr ((withA 7 17#32 (small 0 [])).a[spReg] - 4#32)).toNat + 3 := by decide

/-- JsrStoresOnlyTheReturnAddress and CallThenReturnRestores: a call that completes. -/
theorem witness_JsrStoresOnlyTheReturnAddress_and_CallThenReturnRestores :
    Memory.wf (withA 7 16#32 (small 6 [1])).mem ∧ (withA 7 16#32 (small 6 [1])).faulted = false ∧
      exec (.jsr 8#32) (withA 7 16#32 (small 6 [1])) =
        .next (withA 7 12#32 (small 8 [1, 0, 0, 0, 0, 0, 0, 0, 0, 0, 0, 0, 0, 0, 0, 6])) ∧
      (withA 7 12#32 (small 8 [1, 0, 0, 0, 0, 0, 0, 0, 0, 0, 0, 0, 0, 0, 0, 6])).faulted = false :=
  ⟨by decide, by decide, by rfl, by decide⟩

theorem witness_StepRunsTheDecodedInstruction : Running (small 10 (List.replicate 10 0 ++ [0x4E, 0xB9, 0, 0, 0, 8])) ∧
    (∃ rest, decode CoreParams.default (codeBytes (small 10 (List.replicate 10 0 ++ [0x4E, 0xB9, 0, 0, 0, 8]))) =
      .ok (.jsr 8#32, rest)) := ⟨by decide, [], by rfl⟩

theorem witness_UnknownWordIsSignalled : Running (small 14 (List.replicate 14 0 ++ [0x4E, 0x70])) ∧
    WordAt (small 14 (List.replicate 14 0 ++ [0x4E, 0x70])) 14#32 0x4E70#16 ∧
    handlerOf (small 14 []).params 0x4E70#16 = none := by decide

/-- BraStepFromItsWord, clause by clause. -/
theorem witness_BraStepFromItsWord :
    (Running (small 0 [0x60, 0x80]) ∧ WordAt (small 0 [0x60, 0x80]) 0#32 (0x6000#16 ||| (0x80#8).setWidth 16)) ∧
    (Running (small 0 [0x60, 0]) ∧ WordAt (small 0 [0x60, 0]) 0#32 (0x6000#16 ||| (0#8).setWidth 16) ∧
      (small 0 [0x60, 0]).params.branchD8Zero = .zeroOffset) ∧
    (Running (withEscape (small 0 [0x60, 0, 0, 8])) ∧
      WordAt (withEscape (small 0 [0x60, 0, 0, 8])) 0#32 (0x6000#16 ||| (0#8).setWidth 16) ∧
      (withEscape (small 0 [])).params.branchD8Zero = .wordEscape ∧
      WordAt (withEscape (small 0 [0x60, 0, 0, 8])) (0#32 + 2#32) 8#16) ∧
    (Running (withEscape (small 14 (List.replicate 14 0 ++ [0x60, 0]))) ∧
      WordAt (withEscape (small 14 (List.replicate 14 0 ++ [0x60, 0]))) 14#32 (0x6000#16 ||| (0#8).setWidth 16) ∧
      NoWordAt (withEscape (small 14 (List.replicate 14 0 ++ [0x60, 0]))) (14#32 + 2#32)) := by decide

/-- ConditionalBranchStepFromItsWord, clause by clause, for BEQ.S and for BNE.S. -/
theorem witness_ConditionalBranchStepFromItsWord :
    (Running (withBne (small 0 [0x66, 0xFC])) ∧
      WordAt (withBne (small 0 [0x66, 0xFC])) 0#32 (0x6600#16 ||| (0xFC#8).setWidth 16) ∧
      (withBne (small 0 [])).params.hasBne = true) ∧
    (Running (small 0 [0x67, 0]) ∧ WordAt (small 0 [0x67, 0]) 0#32 (0x6700#16 ||| (0#8).setWidth 16) ∧
      (small 0 [0x67, 0]).params.branchD8Zero = .zeroOffset) ∧
    (Running (withEscape (withBne (small 0 [0x66, 0, 0, 8]))) ∧
      WordAt (withEscape (withBne (small 0 [0x66, 0, 0, 8]))) 0#32 (0x6600#16 ||| (0#8).setWidth 16) ∧
      WordAt (withEscape (withBne (small 0 [0x66, 0, 0, 8]))) (0#32 + 2#32) 8#16) ∧
    (Running (withEscape (small 14 (List.replicate 14 0 ++ [0x67, 0]))) ∧
      WordAt (withEscape (small 14 (List.replicate 14 0 ++ [0x67, 0]))) 14#32 (0x6700#16 ||| (0#8).setWidth 16) ∧
      NoWordAt (withEscape (small 14 (List.replicate 14 0 ++ [0x67, 0]))) (14#32 + 2#32)) := by decide

/-- Its conclusion differs by Z, so both of its outcomes are met. -/
theorem witness_ConditionalBranch_both_ways :
    (withZ (small 0 [0x67, 6])).sr.getLsbD 2 = true ∧ (small 0 [0x67, 6]).sr.getLsbD 2 = false := by decide

theorem witness_MoveStepIsTheResolverSequence : Running (small 0 [0x3E, 0x3C, 0x12, 0x34]) ∧
    WordAt (small 0 [0x3E, 0x3C, 0x12, 0x34]) 0#32 (0x303C#16 + BitVec.ofNat 16 (0x200 * (7 : RegNum).val)) := by decide

/-- FetchOutsideAddressSpaceFaults, clause by clause: the first word that does not fit. -/
theorem witness_FetchOutsideAddressSpaceFaults :
    (Running (small 15 []) ∧ NoWordAt (small 15 []) (small 15 []).pc) ∧
    (WordAt (small 14 (List.replicate 14 0 ++ [0x36, 0x3C])) 14#32 (0x303C#16 + BitVec.ofNat 16 (0x200 * (3 : RegNum).val)) ∧
      NoWordAt (small 14 []) (14#32 + 2#32)) ∧
    (WordAt (small 13 (List.replicate 13 0 ++ [0x4E, 0xB9])) 13#32 0x4EB9#16 ∧ NoWordAt (small 13 []) (13#32 + 2#32)) ∧
    (WordAt (small 12 (List.replicate 12 0 ++ [0x4E, 0xB9, 0, 1])) 12#32 0x4EB9#16 ∧
      WordAt (small 12 (List.replicate 12 0 ++ [0x4E, 0xB9, 0, 1])) (12#32 + 2#32) 1#16 ∧
      NoWordAt (small 12 []) (12#32 + 4#32)) := by decide

theorem witness_StoppedCoreDoesNothing : (small 0 []).ready = true ∧ Stopped { small 0 [] with halted := true } ∧
    Stopped { small 0 [] with faulted := true } := by decide

/-- EndOfARunIsAFixedPoint: a running core at a `BRA.S *` in the last word of AddressSpace. -/
theorem witness_EndOfARunIsAFixedPoint : (small 14 (List.replicate 14 0 ++ [0x60, 0xFE])).ready = true ∧
    Running (small 14 (List.replicate 14 0 ++ [0x60, 0xFE])) ∧ AtEnd (small 14 (List.replicate 14 0 ++ [0x60, 0xFE])) := by decide

theorem witness_StepNeverAborts : State.reset.ready = true := by decide

theorem witness_StepBeforeResetIsRefused :
    (createSession CoreParams.default State.reset.video State.reset).ready = false := by decide

/-- FaultIsRecordedAgainstItsStep and StepFaultsAreAddressErrorsOutOfBounds: a pop that faults (of the read kind), and
a fetch that does. -/
theorem witness_FaultIsRecordedAgainstItsStep_and_StepFaultsAreAddressErrorsOutOfBounds :
    (let s := withA 7 13#32 (small 0 [0x4E, 0x75]);
      Running s ∧ s.fault = none ∧ (after (step s)).faulted = true ∧
        (after (step s)).fault = some ⟨.addressError 13#32 .long .read, 0#32⟩) ∧
    (Running (small 15 []) ∧ (after (step (small 15 []))).fault = some ⟨.addressError 15#32 .word .fetch, 15#32⟩) := by
  decide

/-- The invariant holds in a state with memory in use and in a faulted one. -/
theorem witness_StepKeepsTheInvariant : (small 0 [0x4E, 0x71]).Inv ∧ (after (step (small 15 []))).Inv :=
  ⟨⟨by decide, by decide, by decide, by decide⟩, ⟨by decide, by decide, by decide, by decide⟩⟩

theorem witness_ReservedStatusBitsNeverChange :
    (after (step (code [0xB0, 0x40]))).faulted = false ∧ (after (step (code [0xB0, 0x40]))).sr ≠ (code [0xB0, 0x40]).sr := by
  decide

/-- StepWritesOnlyWhatItsInstructionMay: a step that writes a data register and one that writes memory. -/
theorem witness_StepWritesOnlyWhatItsInstructionMay :
    (let s := withD 1 1#32 (small 0 [0xD0, 0x41]);
      Memory.wf s.mem ∧ Running s ∧ WordAt s s.pc 0xD041#16 ∧ (after (step s)).faulted = false ∧
        (after (step s)).d[0] ≠ s.d[0]) ∧
    (let s := withA 7 16#32 (small 0 [0x4E, 0xB9, 0, 0, 0, 8]);
      Memory.wf s.mem ∧ Running s ∧ WordAt s s.pc 0x4EB9#16 ∧ (after (step s)).faulted = false ∧
        memByte (after (step s)).mem 15 ≠ memByte s.mem 15) := by decide

theorem witness_StepReachesNoVideoMemory :
    (after (step (small 14 (List.replicate 14 0 ++ [0x4E, 0x70])))).faulted = false := by decide

/-- The smallest legal memory and image. -/
theorem witness_ResetLoadsTheImage : { ResetParams.chosen with initSp := 8#32 }.legal 8 ∧
    { ResetParams.chosen with initSp := 8#32 }.minImageSize ≤ (List.replicate 8 1#8).length ∧
    (List.replicate 8 1#8).length ≤ 8 := by decide

/-- FirstStepAfterResetStartsAtTheHeaderPc: a reset that succeeds, with a pc out of bounds (R4 of L2.9). -/
theorem witness_FirstStepAfterResetStartsAtTheHeaderPc :
    (hostReset ResetParams.chosen [0#8, 0#8, 0#8, 0#8, 1#8, 0#8, 0#8, 0#8] State.reset).2 = none ∧
      State.reset.params.memSize ≤
        (hostReset ResetParams.chosen [0#8, 0#8, 0#8, 0#8, 1#8, 0#8, 0#8, 0#8] State.reset).1.pc.toNat + 1 := by decide

theorem witness_FailedResetChangesNothing :
    (List.replicate 7 0#8).length < ResetParams.chosen.minImageSize ∧
      (ResetParams.chosen.minImageSize ≤ (List.replicate 17 0#8).length ∧
        (small 0 []).params.memSize < (List.replicate 17 0#8).length) := by decide

/-- RegionNamesFollowTheTable and HeaderTitleIsTheTrimmedField: the field "JU  ", and an image of 0x130 bytes, which
ends before the field of the region. -/
theorem witness_TrimmedField :
    TrimmedField (at_ 0 0x1F0 [0x4A, 0x55, 0x20, 0x20]) 0x1F0 0x1F4 0x200 "JU".toList ∧
    TrimmedField (at_ 0 0x1F0 [0x4A, 0x55, 0x20, 0x20]) 0x1F0 0x1F4 0x130 [] :=
  ⟨⟨fun a => [Char.ofNat (memByte (at_ 0 0x1F0 [0x4A, 0x55, 0x20, 0x20]).mem a).toNat], [], "  ".toList,
      fun _ _ _ _ => rfl, by decide +kernel, by simp [HeaderBlank], by rintro c (h | h) <;> cases h <;> decide⟩,
    ⟨fun a => [Char.ofNat (memByte (at_ 0 0x1F0 [0x4A, 0x55, 0x20, 0x20]).mem a).toNat], [], [],
      fun _ _ _ _ => rfl, by decide +kernel, by simp, by simp⟩⟩

theorem witness_VideoPort_statements : video.wf vp := by decide

/-- EveryPixelComesFromOneCell: the last pixel of the frame of L2.7. -/
theorem witness_EveryPixelComesFromOneCell : vp.legal ∧ 7 < vp.gridH * 8 * vp.scale ∧ 7 < vp.gridW * 8 * vp.scale := by
  decide

/-- ScreenPixelAsArithmetic, in the video memory of L2.7, where VREG[2] = 1 puts the entry 0x2001 at 0x400: the entry
just out of VRAM and in it; the last tile's row out of VRAM and tile 1's in it; the pixel column 4, of index 0, and the
column 0, of index 1; and the palette rows 4 and 1. -/
theorem witness_ScreenPixelAsArithmetic :
    (vregByte video vp.regHscrollHi).toNat % 2 * 256 + (vregByte video vp.regHscrollLo).toNat = 0 ∧
    (vregByte video vp.regVscroll).toNat = 0 ∧
    (vregByte video vp.regMapbase).toNat % 128 * vp.tilemapBlock = 0x400 ∧
    ({ vp with vramSize := 0x401 } : VideoParams).vramSize ≤ 0x400 + 1 ∧ 0x400 + 1 < vp.vramSize ∧
    (vramByte video 0x400).toNat * 256 + (vramByte video 0x401).toNat = 0x2001 ∧
    (vramByte (vramWrite vp 0x400 0x87 (vramWrite vp 0x401 0xFF video)) 0x400).toNat * 256 +
      (vramByte (vramWrite vp 0x400 0x87 (vramWrite vp 0x401 0xFF video)) 0x401).toNat = 0x87FF ∧
    vp.vramSize ≤ 32 * (0x87FF % 2048) + 17 ∧ 32 * (0x2001 % 2048) + 17 < vp.vramSize ∧
    (vramByte video 0x20).toNat / 2 ^ (7 - 4) % 2 = 0 ∧ (vramByte video 0x21).toNat / 2 ^ (7 - 4) % 2 = 0 ∧
    (vramByte video 0x30).toNat / 2 ^ (7 - 4) % 2 = 0 ∧ (vramByte video 0x31).toNat / 2 ^ (7 - 4) % 2 = 0 ∧
    (vramByte video 0x20).toNat / 2 ^ (7 - 0) % 2 = 1 ∧ 4 ≤ 0x87FF / 8192 ∧ 0x2001 / 8192 < 4 := by decide

theorem witness_FrameTickRunsStepsThenRenders : (small 0 [0x60, 0xFE]).ready = true := by decide

end Sys2Proof.Tests
end

section
/-! The statements about the state of SGEPY-CORE (10_state.md): what a step may write, the invariant it keeps, the
state a reset leaves, and the sizes of video memory and of a frame. -/

namespace Sys2Proof.Machine

/-! ### What an instruction does to the registers -/

/-- How an instruction leaves the address registers, the data registers and SR: `t` is the state after it. -/
inductive RegisterEffect (i : Instr) (s t : State) : Prop
  /-- No register but pc changes. -/
  | pcOnly (ha : t.a = s.a) (hd : t.d = s.d) (hsr : t.sr = s.sr)
  /-- A7 is stepped by a push or a pop. -/
  | stack (v : Long) (hi : i = .rts ∨ ∃ target, i = .jsr target)
      (ha : t.a = s.a.set spReg v) (hd : t.d = s.d) (hsr : t.sr = s.sr)
  /-- Z alone is set. -/
  | compare (x y : RegNum) (z : Bool) (hi : i = .cmpW x y)
      (ha : t.a = s.a) (hd : t.d = s.d) (hsr : t.sr = srWithZ s.sr z)
  /-- The low word of a data register is stored, and Z set. -/
  | store (r : RegNum) (v : Long) (z : Bool) (hi : (∃ imm, i = .moveWImm r imm) ∨ ∃ y, i = .addW r y)
      (ha : t.a = s.a) (hd : t.d = s.d.set r (overwriteLow s.d[r] v .word)) (hsr : t.sr = srWithZ s.sr z)

/-- `exec` has no other effect on the registers, whether or not it faults. -/
theorem exec_registerEffect {i : Instr} {s t : State} (h : exec i s = .next t) : RegisterEffect i s t := by
  cases i with
  | nop => cases h; exact .pcOnly rfl rfl rfl
  | rts =>
    rcases execRts_cases s with ⟨-, e⟩ | ⟨-, e⟩ <;> cases h.symm.trans e
    · exact .stack _ (.inl rfl) rfl rfl rfl
    · exact .stack _ (.inl rfl) rfl rfl rfl
  | jsr target =>
    rcases execJsr_cases target s with ⟨-, e⟩ | ⟨-, e⟩ <;> cases h.symm.trans e
    · exact .stack _ (.inr ⟨target, rfl⟩) rfl rfl rfl
    · exact .stack _ (.inr ⟨target, rfl⟩) rfl rfl rfl
  | bra disp => cases h.symm.trans (branchIf_eq true disp s); exact .pcOnly rfl rfl rfl
  | beq disp => cases h.symm.trans (branchIf_eq (zFlag s) disp s); exact .pcOnly rfl rfl rfl
  | bne disp => cases h.symm.trans (branchIf_eq (!zFlag s) disp s); exact .pcOnly rfl rfl rfl
  | moveWImm n imm => cases h.symm.trans (execMoveWImm_eq n imm s); exact .store n _ _ (.inl ⟨imm, rfl⟩) rfl rfl rfl
  | cmpW x y => cases h; exact .compare x y _ rfl rfl rfl rfl
  | addW x y => cases h; exact .store x _ _ (.inr ⟨y, rfl⟩) rfl rfl rfl

/-! ### The handler of an instruction -/

theorem assemble_eq_rts {k : Handler} {op : Word} {exts : List Word} (h : assemble k op exts = .rts) :
    k = .rts := by
  cases k <;> cases h
  rfl

theorem assemble_eq_jsr {k : Handler} {op : Word} {exts : List Word} {target : Long}
    (h : assemble k op exts = .jsr target) : k = .jsr := by
  cases k <;> cases h
  rfl

theorem assemble_eq_cmpW {k : Handler} {op : Word} {exts : List Word} {x y : RegNum}
    (h : assemble k op exts = .cmpW x y) : k = .cmpW := by
  cases k <;> cases h
  rfl

theorem assemble_eq_moveWImm {k : Handler} {op : Word} {exts : List Word} {r : RegNum} {imm : Word}
    (h : assemble k op exts = .moveWImm r imm) : k = .moveWImm ∧ r = regField op 9 := by
  cases k <;> cases h
  exact ⟨rfl, rfl⟩

theorem assemble_eq_addW {k : Handler} {op : Word} {exts : List Word} {x y : RegNum}
    (h : assemble k op exts = .addW x y) : k = .addW ∧ x = regField op 9 := by
  cases k <;> cases h
  exact ⟨rfl, rfl⟩

/-- An instruction that stores into a data register is a MOVE.W or an ADD.W of the register in its word's bits
11:9 (30_encoding.md R92). -/
theorem assemble_eq_store {k : Handler} {op : Word} {exts : List Word} {r : RegNum}
    (h : (∃ imm, assemble k op exts = .moveWImm r imm) ∨ ∃ y, assemble k op exts = .addW r y) :
    r = regField op 9 ∧ (k = .moveWImm ∨ k = .addW) := by
  rcases h with ⟨imm, h⟩ | ⟨y, h⟩
  · obtain ⟨hk, hr⟩ := assemble_eq_moveWImm h
    exact ⟨hr, .inl hk⟩
  · obtain ⟨hk, hr⟩ := assemble_eq_addW h
    exact ⟨hr, .inr hk⟩

theorem handlerOf_eq_rts {p : CoreParams} {op : Word} (h : handlerOf p op = some .rts) : op = 0x4E75#16 :=
  BitVec.eq_of_toNat_eq ((handlerOf_iff p op .rts).mp h)

theorem handlerOf_eq_jsr {p : CoreParams} {op : Word} (h : handlerOf p op = some .jsr) : op = 0x4EB9#16 :=
  BitVec.eq_of_toNat_eq ((handlerOf_iff p op .jsr).mp h)

/-! ### Register by register -/

/-- One register after another one, or the same, is set. -/
theorem getElem_set_regNum (d : Vector Long 8) (k r : RegNum) (v : Long) :
    (d.set k v)[r] = if k = r then v else d[r] := by
  simp [Vector.getElem_set, Fin.ext_iff]

/-- No instruction writes an address register but A7. -/
theorem RegisterEffect.a_of_ne_spReg {i : Instr} {s t : State} (e : RegisterEffect i s t) {r : RegNum}
    (hr : r ≠ spReg) : t.a[r] = s.a[r] := by
  cases e with
  | stack v hi ha => rw [ha, getElem_set_regNum, if_neg hr.symm]
  | pcOnly ha | compare _ _ _ _ ha | store _ _ _ _ ha => rw [ha]

/-- No instruction writes the high word of a data register. -/
theorem RegisterEffect.d_high {i : Instr} {s t : State} (e : RegisterEffect i s t) (r : RegNum) :
    t.d[r].toNat / 2 ^ 16 = s.d[r].toNat / 2 ^ 16 := by
  cases e with
  | store k v z hi ha hd =>
    rw [hd, getElem_set_regNum]
    split
    · subst k
      rw [overwriteLow_toNat, sizeBytes]
      omega
    · rfl
  | pcOnly _ hd | stack _ _ _ hd | compare _ _ _ _ _ hd => rw [hd]

/-- An instruction that changes a data register stores into that one. -/
theorem RegisterEffect.store_of_d_ne {i : Instr} {s t : State} (e : RegisterEffect i s t) {r : RegNum}
    (hne : t.d[r] ≠ s.d[r]) : (∃ imm, i = .moveWImm r imm) ∨ ∃ y, i = .addW r y := by
  cases e with
  | store k v z hi ha hd =>
    rw [hd, getElem_set_regNum] at hne
    by_cases hk : k = r
    · exact hk ▸ hi
    · exact absurd (if_neg hk) hne
  | pcOnly _ hd | stack _ _ _ hd | compare _ _ _ _ _ hd => exact absurd (by rw [hd]) hne

/-- No instruction writes a bit of SR but Z (10_state.md R25). -/
theorem RegisterEffect.sr_bit {i : Instr} {s t : State} (e : RegisterEffect i s t) {k : Nat} (hk : k ≠ 2) :
    t.sr.getLsbD k = s.sr.getLsbD k := by
  cases e with
  | pcOnly _ _ hsr | stack _ _ _ _ hsr => rw [hsr]
  | compare _ _ z _ _ _ hsr | store _ _ z _ _ _ hsr => rw [hsr, srWithZ_getLsbD, if_neg hk]

/-! ### The invariant -/

theorem setPc_inv {s : State} (h : s.Inv) (v : Long) : (setPc v s).Inv :=
  ⟨h.mem_wf, h.mem_below, h.fault_iff, h.halt_policy⟩

theorem raise_inv {s : State} (h : s.Inv) (e : FaultEvent) (a0 : Long) : (raise e a0 s).Inv :=
  ⟨h.mem_wf, h.mem_below, rfl, h.halt_policy⟩

/-- The signal of an unknown word halts under UNKNOWN_POLICY = halt alone (60_exceptions.md R265). -/
theorem unknownOpcode_inv {s : State} (h : s.Inv) (op : Word) (a0 : Long) : (unknownOpcode op a0 s).Inv where
  mem_wf := by rw [unknownOpcode_mem]; exact h.mem_wf
  mem_below := by rw [unknownOpcode_mem, unknownOpcode_params]; exact h.mem_below
  fault_iff := by rw [unknownOpcode_faulted, unknownOpcode_fault]; exact h.fault_iff
  halt_policy := by
    rw [unknownOpcode_halted, unknownOpcode_params, Bool.or_eq_true, beq_iff_eq]
    exact fun hh => hh.elim h.halt_policy id

/-- An instruction keeps the invariant: its one write to memory is a push within MEM_SIZE, and it records a fault
when it sets `core.faulted`. -/
theorem exec_inv {i : Instr} {s t : State} (hs : s.Inv) (h : exec i s = .next t) : t.Inv := by
  obtain ⟨core, hmem, hfault⟩ := exec_leaves h
  have hm : Memory.wf t.mem ∧ sparseBelow s.params.memSize t.mem := by
    rcases hmem with e | ⟨hb, e, -⟩ <;> rw [e]
    · exact ⟨hs.mem_wf, hs.mem_below⟩
    · exact ⟨write32_wf _ _ _ hs.mem_wf, write32_below _ _ _ _ hs.mem_below (by omega)⟩
  refine ⟨hm.1, core.params ▸ hm.2, ?_, ?_⟩
  · rcases hfault with ⟨hf, hr⟩ | ⟨ea, k, -, -, hf, hr⟩
    · rw [hf, hr, hs.fault_iff]
    · rw [hf, hr, Option.isSome_some]
  · rw [core.halted, core.params]
    exact hs.halt_policy

/-- Settles O41: from each of the ways a step ends (`step_cases`). -/
theorem stepKeepsTheInvariant : Obligations.StepKeepsTheInvariant := by
  intro s t hs h
  rcases step_cases h with ⟨-, -, rfl⟩ | ⟨-, addr, pc', -, rfl⟩ | ⟨-, op, -, -, rfl⟩ | ⟨-, op, k, exts, -, -, -, he⟩
  · exact hs
  · exact raise_inv (setPc_inv hs _) _ _
  · exact unknownOpcode_inv (setPc_inv hs _) _ _
  · exact exec_inv (setPc_inv hs _) he

/-- Settles O42: nothing is listed in memory, and the core fields are cleared. -/
theorem resetMeetsTheInvariant : Obligations.ResetMeetsTheInvariant :=
  ⟨⟨⟨.nil, by simp [State.reset]⟩, by simp [State.reset], rfl, by simp [State.reset]⟩, rfl, rfl, rfl, rfl⟩

/-! ### What a step may write -/

/-- Settles O43: an instruction is the only part of a completing step that writes SR, and it writes Z. -/
theorem reservedStatusBitsNeverChange : Obligations.ReservedStatusBitsNeverChange := by
  intro s t k h hf hk
  rcases step_cases h with ⟨-, -, rfl⟩ | ⟨-, addr, pc', -, rfl⟩ | ⟨-, op, -, -, rfl⟩ | ⟨-, op, j, exts, -, -, -, he⟩
  · rfl
  · rfl
  · rw [unknownOpcode_sr, setPc_sr]
  · exact (exec_registerEffect he).sr_bit hk

/-- An instruction that changes memory is a JSR, and the byte is one of the four it pushes. -/
theorem jsr_of_memByte_ne {i : Instr} {s t : State} (h : exec i s = .next t) (hwf : Memory.wf s.mem) {x : Nat}
    (hne : memByte t.mem x ≠ memByte s.mem x) :
    (∃ target, i = .jsr target) ∧ (maskAddr (s.a[spReg] - 4#32)).toNat ≤ x ∧
      x < (maskAddr (s.a[spReg] - 4#32)).toNat + 4 := by
  obtain ⟨-, hmem, -⟩ := exec_leaves h
  rcases hmem with e | ⟨-, e, hi⟩ <;> rw [e] at hne
  · exact absurd rfl hne
  · refine ⟨hi, ?_⟩
    by_contra hx
    exact hne (memByte_write32_outside _ _ _ _ hwf (by omega))

/-- Settles O44: an unknown word writes none of these; an instruction's part by part, from its effect on the
registers and on memory. -/
theorem stepWritesOnlyWhatItsInstructionMay : Obligations.StepWritesOnlyWhatItsInstructionMay := by
  rintro s t op hwf ⟨-, hnf, hnh⟩ ⟨-, rfl⟩ h hf
  rcases step_cases h with ⟨-, hs, -⟩ | ⟨-, addr, pc', -, rfl⟩ | ⟨-, op, -, -, rfl⟩ |
    ⟨-, op, k, exts, ⟨-, rfl⟩, hh, -, he⟩
  · exact absurd hs (by simp [hnf, hnh])
  · cases hf
  · simp
  have e := exec_registerEffect he
  rw [hh]
  refine ⟨fun r hr => e.a_of_ne_spReg hr, fun hrts hjsr => ?_, e.d_high, fun r hne => ?_, fun hne => ?_,
    fun x hne => ?_⟩
  · cases e with
    | stack v hi =>
      rcases hi with hi | ⟨target, hi⟩
      · exact absurd (handlerOf_eq_rts (assemble_eq_rts hi ▸ hh)) hrts
      · exact absurd (handlerOf_eq_jsr (assemble_eq_jsr hi ▸ hh)) hjsr
    | pcOnly ha | compare _ _ _ _ ha | store _ _ _ _ ha => exact ha
  · obtain ⟨rfl, hk⟩ := assemble_eq_store (e.store_of_d_ne hne)
    exact ⟨regField_val _ _, hk.imp (congrArg some) (congrArg some)⟩
  · cases e with
    | compare x y z hi => exact .inr (.inl (congrArg some (assemble_eq_cmpW hi)))
    | store r v z hi =>
      rcases (assemble_eq_store hi).2 with hk | hk
      · exact .inl (congrArg some hk)
      · exact .inr (.inr (congrArg some hk))
    | pcOnly _ _ hsr | stack _ _ _ _ hsr => exact absurd hsr hne
  · obtain ⟨⟨target, hi⟩, hx⟩ := jsr_of_memByte_ne he hwf hne
    exact ⟨handlerOf_eq_jsr (assemble_eq_jsr hi ▸ hh), hx⟩

/-- Settles O45: an instruction leaves the core and its configuration (`exec_leaves`), and an unknown word adds its
signal alone. -/
theorem stepReachesNoVideoMemory : Obligations.StepReachesNoVideoMemory := by
  intro s t h hf
  rcases step_cases h with ⟨-, -, rfl⟩ | ⟨-, addr, pc', -, rfl⟩ | ⟨-, op, ⟨-, rfl⟩, -, rfl⟩ |
    ⟨-, op, k, exts, -, -, -, he⟩
  · exact ⟨rfl, rfl, .inl rfl⟩
  · cases hf
  · simp
  · obtain ⟨core, -, -⟩ := exec_leaves he
    exact ⟨core.video, core.params, .inl core.log⟩

/-- A faulted or halted core does nothing (30_encoding.md R96). -/
theorem step_of_stopped {s : State} (hr : s.ready = true) (hs : Stopped s) : step s = .next s := by
  have : (s.faulted || s.halted) = true := Bool.or_eq_true_iff.mpr hs
  simp [step, hr, this]

/-- Settles O35. -/
theorem stoppedCoreDoesNothing : Obligations.StoppedCoreDoesNothing := fun _ => step_of_stopped

/-! ### Reset -/

/-- A reset with an image of an accepted length succeeds (70_reset_and_hazards.md R291). -/
theorem hostReset_of_fits {r : ResetParams} {image : List Byte} {s : State} (h1 : r.minImageSize ≤ image.length)
    (h2 : image.length ≤ s.params.memSize) : hostReset r image s = (afterReset r image s, none) := by
  rw [hostReset, if_neg (by omega), if_neg (by omega)]

/-- The pc of an image's header as a number, byte by byte. -/
theorem headerPc_toNat (image : List Byte) : (headerPc image).toNat =
    (image.getD 4 0#8).toNat * 2 ^ 24 + (image.getD 5 0#8).toNat * 2 ^ 16 + (image.getD 6 0#8).toNat * 2 ^ 8 +
      (image.getD 7 0#8).toNat := by
  rw [headerPc, longOf_toNat, wordOf_toNat, wordOf_toNat]
  omega

/-- Settles O46: memory by the laws of loading an image, the other fields as `afterReset` sets them. -/
theorem resetLoadsTheImage : Obligations.ResetLoadsTheImage := by
  rintro r image s ⟨-, -, -, -, -, hwf, hbelow⟩ h1 h2
  have hmem : ∀ x, memByte (loadFrom 0 image r.memFill) x =
      if x < image.length then image.getD x 0#8 else memByte r.memFill x := by
    intro x
    simp [memByte_loadFrom image 0 _ x hwf]
  refine ⟨afterReset r image s, hostReset_of_fits h1 h2, headerPc_toNat image, fun k hk => ?_, fun k hk => ?_,
    loadFrom_wf _ _ _ hwf, loadFrom_below _ _ _ _ hbelow (by rw [Nat.zero_add]; exact h2), ?_, fun k hk => ?_,
    rfl, rfl, rfl, rfl, rfl, rfl, rfl, rfl, rfl⟩
  · exact (hmem k).trans (if_pos hk)
  · exact (hmem k).trans (if_neg (by omega))
  · exact (getElem_set_regNum _ _ _ _).trans (if_pos rfl)
  · exact (getElem_set_regNum _ _ _ _).trans (if_neg hk.symm)

/-! ### The sizes of video memory and of a frame -/

theorem vramWrite_wf {p : VideoParams} {v : Video} (h : v.wf p) (o b : Nat) : (vramWrite p o b v).wf p := by
  obtain ⟨hvram, hvramBelow, hrest⟩ := h
  unfold vramWrite
  split
  · exact ⟨sparseSet_wf _ _ _ _ hvram, sparseSet_below _ _ _ _ _ hvramBelow ‹_›, hrest⟩
  · exact ⟨hvram, hvramBelow, hrest⟩

theorem vregWrite_wf {p : VideoParams} {v : Video} (h : v.wf p) (n b : Nat) : (vregWrite p n b v).wf p := by
  obtain ⟨hvram, hvramBelow, hvsram, hvsramBelow, hwidth, hvreg, hvregBelow⟩ := h
  unfold vregWrite
  split
  · exact ⟨hvram, hvramBelow, hvsram, hvsramBelow, hwidth, sparseSet_wf _ _ _ _ hvreg,
      sparseSet_below _ _ _ _ _ hvregBelow ‹_›⟩
  · exact ⟨hvram, hvramBelow, hvsram, hvsramBelow, hwidth, hvreg, hvregBelow⟩

/-- The entry written is cut to VSRAM_WIDTH bits (20_memory.md R77). -/
theorem vsramWrite_wf {p : VideoParams} {v : Video} (h : v.wf p) (i e : Nat) : (vsramWrite p i e v).wf p := by
  obtain ⟨hvram, hvramBelow, hvsram, hvsramBelow, hwidth, hrest⟩ := h
  unfold vsramWrite
  split
  · refine ⟨hvram, hvramBelow, sparseSet_wf _ _ _ _ hvsram, sparseSet_below _ _ _ _ _ hvsramBelow ‹_›, ?_, hrest⟩
    intro c hc
    rcases mem_sparseSet _ _ _ _ c hc with ⟨rfl, -⟩ | hc
    · exact Nat.mod_lt _ (Nat.two_pow_pos _)
    · exact hwidth c hc
  · exact ⟨hvram, hvramBelow, hvsram, hvsramBelow, hwidth, hrest⟩

/-- CRAM's size and entry width are those of its type; the port write touches no other array. -/
theorem cramWrite_wf {p : VideoParams} {v : Video} (h : v.wf p) (i c : Nat) : (cramWrite i c v).wf p := by
  unfold cramWrite
  split
  · exact h
  · exact h

/-- Settles O51, port write by port write. -/
theorem videoPortKeepsTheForm : Obligations.VideoPortKeepsTheForm :=
  fun _ _ o b h => ⟨vramWrite_wf h o b, vregWrite_wf h o b, vsramWrite_wf h o b, cramWrite_wf h o b⟩

/-- Settles O52: the blank frame has the grid's dimensions, and every cell drawn keeps them. -/
theorem frameHasTheGridsDimensions : Obligations.FrameHasTheGridsDimensions := by
  intro p v
  show (renderFrame p v).sized p
  exact foldl_keeps (Frame.sized p) _ _ _ (blankFrame_sized p) fun _ _ h1 =>
    foldl_keeps (Frame.sized p) _ _ _ h1 fun _ _ h2 => drawCell_sized _ _ _ h2

end Sys2Proof.Machine
end

section
/-! The statements about AddressSpace (20_memory.md): the bytes a word or a long has in it, what an access in bounds
and out of bounds does, the masked addresses, the faults of a step, and the video port and frame tick beside it. -/

namespace Sys2Proof.Machine

/-! ### The bytes of a word and of a long -/

/-- The bytes of a 16-bit write as numbers, and its frame (20_memory.md R63). -/
theorem write16_bytes {m : Memory} (h : Memory.wf m) (a : Nat) (v : Word) :
    (memByte (write16 m a v) a).toNat = v.toNat / 256 ∧
    (memByte (write16 m a v) (a + 1)).toNat = v.toNat % 256 ∧
    ∀ x, x ≠ a → x ≠ a + 1 → memByte (write16 m a v) x = memByte m x := by
  have hv := v.isLt
  refine ⟨?_, ?_, fun x h0 h1 => ?_⟩
  · rw [memByte_write16 _ _ _ _ h, if_pos rfl, field_toNat]
    omega
  · rw [memByte_write16 _ _ _ _ h, if_neg (by omega), if_pos rfl, field_toNat]
    omega
  · rw [memByte_write16 _ _ _ _ h, if_neg h0, if_neg h1]

/-- Byte `j` of a long written, from the high one on (20_memory.md R64). -/
theorem memByte_write32_inside {m : Memory} (h : Memory.wf m) (a : Nat) (v : Long) {j : Nat} (hj : j < 4) :
    memByte (write32 m a v) (a + j) = v.extractLsb' (24 - 8 * j) 8 := by
  rw [memByte_write32 _ _ _ _ h]
  interval_cases j <;> simp

/-- The bytes of a 32-bit write as numbers, and its frame (20_memory.md R64). -/
theorem write32_bytes {m : Memory} (h : Memory.wf m) (a : Nat) (v : Long) :
    (memByte (write32 m a v) a).toNat = v.toNat / 2 ^ 24 ∧
    (memByte (write32 m a v) (a + 1)).toNat = v.toNat / 2 ^ 16 % 256 ∧
    (memByte (write32 m a v) (a + 2)).toNat = v.toNat / 2 ^ 8 % 256 ∧
    (memByte (write32 m a v) (a + 3)).toNat = v.toNat % 256 ∧
    ∀ x, x < a ∨ a + 4 ≤ x → memByte (write32 m a v) x = memByte m x := by
  have hv := v.isLt
  have byte : ∀ j < 4, (memByte (write32 m a v) (a + j)).toNat = v.toNat / 2 ^ (24 - 8 * j) % 2 ^ 8 :=
    fun j hj => by rw [memByte_write32_inside h a v hj, field_toNat]
  refine ⟨(byte 0 (by omega)).trans (by omega), byte 1 (by omega), byte 2 (by omega),
    (byte 3 (by omega)).trans (by omega), fun x hx => memByte_write32_outside m a v x h hx⟩

/-- Settles O6: the value of a word of two bytes, and the bytes of a 16-bit write. -/
theorem wordAccessIsBigEndian : Obligations.WordAccessIsBigEndian :=
  fun _ a v h => ⟨wordOf_toNat _ _, write16_bytes h a v⟩

/-- Settles O7: the value of a long of four bytes, and the bytes of a 32-bit write. -/
theorem longAccessIsBigEndian : Obligations.LongAccessIsBigEndian :=
  fun m a v h => ⟨read32_toNat m a, write32_bytes h a v⟩

/-- Two neighbouring bytes of a long make the word there. -/
theorem wordOf_fields (v : Long) (lo : Nat) :
    wordOf (v.extractLsb' (lo + 8) 8) (v.extractLsb' lo 8) = v.extractLsb' lo 16 :=
  BitVec.extractLsb'_append_extractLsb'_eq_extractLsb' rfl

/-- A word read within a long written is the word of it there (20_memory.md R69). -/
theorem read16_write32 {m : Memory} (h : Memory.wf m) (a : Nat) (v : Long) {j : Nat} (hj : j ≤ 2) :
    read16 (write32 m a v) (a + j) = v.extractLsb' (16 - 8 * j) 16 := by
  have hhi : 24 - 8 * j = 16 - 8 * j + 8 := by omega
  have hlo : 24 - 8 * (j + 1) = 16 - 8 * j := by omega
  rw [read16, Nat.add_assoc, memByte_write32_inside h a v (show j < 4 by omega),
    memByte_write32_inside h a v (show j + 1 < 4 by omega), hhi, hlo, wordOf_fields]

/-- Settles O9: from the bytes that a write of each width leaves. -/
theorem mixedWidthViewOfOneByteArray : Obligations.MixedWidthViewOfOneByteArray := by
  intro m a v b h
  refine ⟨read16_write32 h a v (j := 0) (by omega), read16_write32 h a v (j := 1) (by omega),
    read16_write32 h a v (j := 2) (by omega), read32_write32 m a v h, ?_⟩
  rw [read16, memByte_write8 _ _ _ _ h, memByte_write8 _ _ _ _ h, if_neg (by omega), if_pos rfl]
  rfl

/-! ### Accesses in bounds and out of bounds -/

/-- An access that reaches MEM_SIZE is not in bounds (20_memory.md R62). -/
theorem inBounds_eq_false {s : State} {addr : Long} {n : Size}
    (h : s.params.memSize < addr.toNat + max (sizeBytes n) 2) : inBounds s addr n = false := by
  rw [Bool.eq_false_iff, ne_eq, inBounds_iff]
  omega

/-- Settles O8: the value and the bytes of each size in bounds, the raise of every size out of bounds. -/
theorem accessReadsAndWritesInBounds : Obligations.AccessReadsAndWritesInBounds := by
  intro a0 addr v s hwf
  refine ⟨fun hb => ?_, fun hb => ?_, fun n hb => ?_⟩
  · have hbyte := (inBounds_byte s addr).mpr hb
    have hword := (inBounds_word s addr).mpr hb
    refine ⟨?_, ⟨_, memWrite_of_inBounds hbyte, ?_, fun x hx => ?_⟩, memRead_of_inBounds hword,
      memWrite_of_inBounds hword⟩
    · rw [memRead_of_inBounds hbyte, readSized, read8_eq]
    · rw [writeSized, memByte_write8 _ _ _ _ hwf, if_pos rfl, field_toNat]
      omega
    · rw [writeSized, memByte_write8 _ _ _ _ hwf, if_neg hx]
  · have hlong := (inBounds_long s addr).mpr hb
    exact ⟨memRead_of_inBounds hlong, memWrite_of_inBounds hlong⟩
  · have hout := inBounds_eq_false hb
    exact ⟨⟨_, memRead_of_outside hout, rfl, rfl⟩, ⟨_, memWrite_of_outside hout, rfl, rfl⟩⟩

/-! ### Locations -/

theorem maskAddr_lt (ea : Long) : (maskAddr ea).toNat < 2 ^ 24 := by
  rw [maskAddr_toNat]
  exact Nat.mod_lt _ (by decide)

/-- Settles O10: a memory address that `Resolve` gives is a masked one (`resolve_done`). -/
theorem resolvedAddressesAreMasked : Obligations.ResolvedAddressesAreMasked := by
  intro a0 addr mode reg n s t h
  obtain ⟨-, -, -, -, hmem⟩ := resolve_done h
  obtain ⟨ea, rfl⟩ := hmem addr rfl
  exact maskAddr_lt ea

/-- The sized part of a register whose sized part was overwritten (40_effective_address.md R122, R123). -/
theorem maskTo_overwriteLow (n : Size) (old v : Long) : maskTo n (overwriteLow old v n) = maskTo n v := by
  apply BitVec.eq_of_toNat_eq
  rw [maskTo_toNat, overwriteLow_toNat, maskTo_toNat, Nat.mul_add_mod', Nat.mod_mod]

/-- Settles O19, by the kind of location written. -/
theorem readLocGivesWhatWriteLocStored : Obligations.ReadLocGivesWhatWriteLocStored := by
  intro a0 v loc n s t hwf h
  rcases writeLoc_done h with ⟨r, rfl, rfl⟩ | ⟨r, rfl, rfl⟩ | ⟨addr, rfl, hb, rfl⟩
  · simp only [readLoc, setD_d, getElem_set_regNum, if_true, maskTo_overwriteLow]
  · simp only [readLoc, setA_a, getElem_set_regNum, if_true]
  · have hb' : inBounds (setMem (writeSized s.mem addr.toNat v n) s) addr n = true := hb
    simp only [readLoc, memRead_of_inBounds hb', setMem_mem, readSized_writeSized _ _ _ _ hwf]

/-- Settles O23: a JSR that does not fault leaves the 32-bit write of its return address. -/
theorem jsrStoresOnlyTheReturnAddress : Obligations.JsrStoresOnlyTheReturnAddress := by
  rintro target s t hwf - h hf sp rfl
  rcases execJsr_cases target s with ⟨-, e⟩ | ⟨-, e⟩ <;> cases h.symm.trans e
  · exact write32_bytes hwf _ s.pc
  · cases hf

/-! ### Where a step faults -/

/-- An opcode word that AddressSpace does not hold faults the step (20_memory.md R67). -/
theorem step_of_noWordAt {s : State} (hrun : Running s) (h : NoWordAt s s.pc) :
    step s = .next (raise (.addressError s.pc .word .fetch) s.pc s) := by
  simp only [step_of_running hrun, fetchInstr, fetch16_of_noWordAt h]

/-- A fault at an extension word ends the step (60_exceptions.md R268). -/
theorem step_of_fetchExts_raised {s t : State} {op : Word} {k : Handler} (hrun : Running s)
    (hw : WordAt s s.pc op) (hk : handlerOf s.params op = some k)
    (hx : fetchExts s.pc (extCount s.params k op) (setPc (s.pc + 2#32) s) = .raised t) : step s = .next t := by
  simp only [step_of_running hrun, fetchInstr, fetch16_of_wordAt hw, hk, hx]

/-- A second extension word that AddressSpace does not hold. -/
theorem fetchExts_second_outside {a0 : Long} {s : State} {w : Word} {k : Nat} (h : WordAt s s.pc w)
    (hn : NoWordAt s (s.pc + 2#32)) : fetchExts a0 (k + 2) s =
      .raised (raise (.addressError (s.pc + 2#32) .word .fetch) a0 (setPc (s.pc + 2#32) s)) := by
  rw [fetchExts, nextExt_of_wordAt h, andThen_done, fetchExts_outside hn]
  rfl

/-- The opcode word of MOVE.W #imm,Dn has MOVE.W's handler (30_encoding.md R92, R97). -/
theorem handlerOf_moveWImm (p : CoreParams) (n : RegNum) :
    handlerOf p (0x303C#16 + BitVec.ofNat 16 (0x200 * n.val)) = some .moveWImm := by
  have := n.isLt
  rw [handlerOf_iff]
  simp only [BitVec.toNat_add, BitVec.toNat_ofNat]
  omega

theorem handlerOf_jsr (p : CoreParams) : handlerOf p 0x4EB9#16 = some .jsr := (handlerOf_iff p _ .jsr).mpr rfl

/-- Settles O34, from the fetch of each word in stream order. -/
theorem fetchOutsideAddressSpaceFaults : Obligations.FetchOutsideAddressSpaceFaults := by
  intro s hrun
  refine ⟨fun hn => ⟨_, step_of_noWordAt hrun hn, rfl, rfl⟩, fun n hw hn => ?_, fun hw hn => ?_,
    fun w hw hw1 hn => ?_⟩
  · exact ⟨_, step_of_fetchExts_raised hrun hw (handlerOf_moveWImm _ n) (fetchExts_outside (k := 0) hn), rfl, rfl⟩
  · exact ⟨_, step_of_fetchExts_raised hrun hw (handlerOf_jsr _) (fetchExts_outside (k := 1) hn), rfl, rfl⟩
  · have hpc : s.pc + 4#32 = s.pc + 2#32 + 2#32 := by rw [BitVec.add_assoc]; rfl
    rw [hpc] at hn ⊢
    exact ⟨_, step_of_fetchExts_raised hrun hw (handlerOf_jsr _) (fetchExts_second_outside (k := 0) hw1 hn),
      rfl, rfl⟩

/-- Settles O40: of the ways a step ends (`step_cases`), a fetch and an instruction's stack access record a fault. -/
theorem stepFaultsAreAddressErrorsOutOfBounds : Obligations.StepFaultsAreAddressErrorsOutOfBounds := by
  intro s t r hrun hs h hr
  rcases step_cases h with ⟨-, -, rfl⟩ | ⟨-, addr, pc', hb, rfl⟩ | ⟨-, op, -, -, rfl⟩ | ⟨-, op, k, exts, -, -, -, he⟩
  · cases hs.symm.trans hr
  · cases hr
    exact ⟨addr, .word, .fetch, rfl, Nat.lt_succ_of_le hb, .inl ⟨rfl, rfl⟩⟩
  · rw [unknownOpcode_fault, setPc_fault, hs] at hr
    cases hr
  · obtain ⟨-, -, ⟨-, hsame⟩ | ⟨ea, kind, hkind, hb, -, hfault⟩⟩ := exec_leaves he
    · cases (hsame.trans hs).symm.trans hr
    · cases hfault.symm.trans hr
      exact ⟨maskAddr ea, .long, kind, rfl, Nat.lt_succ_of_le hb, .inr ⟨hkind, rfl, maskAddr_lt ea⟩⟩

/-! ### The video port -/

/-- A port write to an array, dropped out of range (20_memory.md R78), as a later read in range sees it. -/
theorem sparseGet_portWrite {α : Type} [DecidableEq α] {z : α} {m : List (Nat × α)} (h : sparseWf z m)
    {size x : Nat} (hx : x < size) (o : Nat) (b : α) :
    sparseGet z (if o < size then sparseSet z m o b else m) x = if x = o then b else sparseGet z m x := by
  by_cases ho : o < size
  · rw [if_pos ho, sparseGet_sparseSet _ _ _ _ _ h.1]
    exact if_congr eq_comm rfl rfl
  · rw [if_neg ho, if_neg (by omega)]

theorem vramWrite_eq (p : VideoParams) (o b : Nat) (v : Video) : vramWrite p o b v =
    { v with vram := if o < p.vramSize then sparseSet videoZero v.vram o (BitVec.ofNat 8 b) else v.vram } := by
  unfold vramWrite
  split <;> rfl

theorem vregWrite_eq (p : VideoParams) (n b : Nat) (v : Video) : vregWrite p n b v =
    { v with vreg := if n < p.vregCount then sparseSet videoZero v.vreg n (BitVec.ofNat 8 b) else v.vreg } := by
  unfold vregWrite
  split <;> rfl

theorem vsramWrite_eq (p : VideoParams) (i e : Nat) (v : Video) : vsramWrite p i e v =
    { v with vsram := if i < p.vsramEntries then sparseSet 0 v.vsram i (e % 2 ^ p.vsramWidth) else v.vsram } := by
  unfold vsramWrite
  split <;> rfl

theorem cramEntry_of_lt (v : Video) {i : Nat} (hi : i < 64) : cramEntry v i = v.cram[i] := by
  simp [cramEntry, Vector.getD, hi]

/-- An entry of CRAM after a port write, dropped at an index CRAM does not have. -/
theorem cramEntry_cramWrite (i c : Nat) (v : Video) {x : Nat} (hx : x < 64) :
    cramEntry (cramWrite i c v) x = if x = i then BitVec.ofNat 9 c else cramEntry v x := by
  rw [cramEntry_of_lt _ hx, cramEntry_of_lt _ hx]
  unfold cramWrite
  split
  · rw [Vector.getElem_set]
    exact if_congr eq_comm rfl rfl
  · rw [if_neg (by omega)]

theorem cramWrite_frame (i c : Nat) (v : Video) : cramWrite i c v = { v with cram := (cramWrite i c v).cram } := by
  unfold cramWrite
  split <;> rfl

/-- Settles O50, array by array. -/
theorem videoPortReadsWhatItWrote : Obligations.VideoPortReadsWhatItWrote := by
  rintro p v o b x ⟨hvram, -, hvsram, -, -, hvreg, -⟩
  refine ⟨?_, ?_, ?_, ?_, fun h => if_neg (by omega), fun h => if_neg (by omega), fun h => if_neg (by omega),
    fun h => dif_neg (by omega), ?_, ?_, ?_, ?_⟩
  · refine ite_congr rfl (fun hx => ?_) fun _ => rfl
    rw [vramWrite_eq]
    exact congrArg some (sparseGet_portWrite hvram hx o _)
  · refine ite_congr rfl (fun hx => ?_) fun _ => rfl
    rw [vregWrite_eq]
    exact congrArg some (sparseGet_portWrite hvreg hx o _)
  · refine ite_congr rfl (fun hx => ?_) fun _ => rfl
    rw [vsramWrite_eq]
    exact congrArg some (sparseGet_portWrite hvsram hx o _)
  · refine ite_congr rfl (fun hx => ?_) fun _ => rfl
    exact congrArg some (cramEntry_cramWrite o b v hx)
  · rw [vramWrite_eq]
  · rw [vregWrite_eq]
  · rw [vsramWrite_eq]
  · exact cramWrite_frame o b v

/-! ### Steps in a row -/

/-- After a reset a step gives a next state (60_exceptions.md R261). -/
theorem step_next {s : State} (hr : s.ready = true) : ∃ t, step s = .next t := by
  by_cases hs : Stopped s
  · exact ⟨s, step_of_stopped hr hs⟩
  have hrun : Running s := by
    obtain ⟨hf, hh⟩ := not_or.mp hs
    exact ⟨hr, by simpa using hf, by simpa using hh⟩
  rw [step_of_running hrun]
  cases fetchInstr s with
  | instr i s1 => exact exec_next i s1
  | unknown op a0 s1 => exact ⟨_, rfl⟩
  | raised s1 => exact ⟨_, rfl⟩

/-- No step reaches video memory or takes back a reset, whether or not it faults (20_memory.md R74). -/
theorem step_keeps_ready_video {s t : State} (h : step s = .next t) : t.ready = s.ready ∧ t.video = s.video := by
  rcases step_cases h with ⟨-, -, rfl⟩ | ⟨-, addr, pc', -, rfl⟩ | ⟨-, op, -, -, rfl⟩ | ⟨-, op, k, exts, -, -, -, he⟩
  · exact ⟨rfl, rfl⟩
  · exact ⟨rfl, rfl⟩
  · exact ⟨unknownOpcode_ready _ _ _, unknownOpcode_video _ _ _⟩
  · obtain ⟨core, -, -⟩ := exec_leaves he
    exact ⟨core.ready, core.video⟩

/-- Any number of steps after a reset gives a next state, with video memory as it was. -/
theorem runSteps_next (k : Nat) {s : State} (hr : s.ready = true) :
    ∃ t, runSteps k s = .next t ∧ t.video = s.video := by
  induction k generalizing s with
  | zero => exact ⟨s, rfl, rfl⟩
  | succ k ih =>
    obtain ⟨s1, h1⟩ := step_next hr
    obtain ⟨hready, hvideo⟩ := step_keeps_ready_video h1
    obtain ⟨t, ht, htv⟩ := ih (hready.trans hr)
    exact ⟨t, by rw [runSteps, h1]; exact ht, htv.trans hvideo⟩

/-- Settles O56: the steps complete and leave the video memory that the render then reads. -/
theorem frameTickRunsStepsThenRenders : Obligations.FrameTickRunsStepsThenRenders := by
  intro p k s hr
  obtain ⟨t, ht, hv⟩ := runSteps_next k hr
  refine ⟨t, ht, ?_⟩
  rw [frameTick, ht, ← hv]

end Sys2Proof.Machine
end

section
/-! The statements about the encoding (30_encoding.md): the words of each row of the dispatch table, the encoder and
the decoder as inverses of each other, the step as the meaning of what its bytes decode to, and the addressing modes
that take extension words (40_effective_address.md). -/

namespace Sys2Proof

/-! ### The rows of the dispatch table -/

/-- The row of a handler (30_encoding.md R97). -/
def tableRow : Handler → DispatchRow
  | .nop => ⟨0xFFFF#16, 0x4E71#16, .nop⟩
  | .rts => ⟨0xFFFF#16, 0x4E75#16, .rts⟩
  | .jsr => ⟨0xFFFF#16, 0x4EB9#16, .jsr⟩
  | .bra => ⟨0xFF00#16, 0x6000#16, .bra⟩
  | .beq => ⟨0xFF00#16, 0x6700#16, .beq⟩
  | .bne => ⟨0xFF00#16, 0x6600#16, .bne⟩
  | .moveWImm => ⟨0xF1FF#16, 0x303C#16, .moveWImm⟩
  | .cmpW => ⟨0xF1F8#16, 0xB040#16, .cmpW⟩
  | .addW => ⟨0xF1F8#16, 0xD040#16, .addW⟩

/-- Every row of the table is a handler's row, and BNE.S has one only when it is present. -/
theorem exists_tableRow_of_mem {hasBne : Bool} {r : DispatchRow} (hr : r ∈ dispatchRows hasBne) :
    ∃ h, r = tableRow h ∧ (h = .bne → hasBne = true) := by
  cases hasBne with
  | true =>
    have rows : dispatchRows true =
        [.nop, .rts, .jsr, .bra, .beq, .bne, .moveWImm, .cmpW, .addW].map tableRow := rfl
    rw [rows, List.mem_map] at hr
    obtain ⟨h, -, rfl⟩ := hr
    exact ⟨h, rfl, fun _ => rfl⟩
  | false =>
    have rows : dispatchRows false = [.nop, .rts, .jsr, .bra, .beq, .moveWImm, .cmpW, .addW].map tableRow := rfl
    rw [rows, List.mem_map] at hr
    obtain ⟨h, hmem, rfl⟩ := hr
    exact ⟨h, rfl, by rintro rfl; exact absurd hmem (by decide)⟩

/-- A word that a handler's row matches is dispatched to that handler, whichever rows stand before it. -/
theorem handlerOf_of_hits {p : CoreParams} {op : Word} {h : Handler} (hbne : h = .bne → p.hasBne = true)
    (hit : (tableRow h).hits op = true) : handlerOf p op = some h := by
  have high : ∀ {k}, op.toNat / 256 * 256 = 256 * k → op.toNat / 256 = k := by omega
  have move : op.toNat / 4096 * 4096 + op.toNat % 512 = 0x303C →
      op.toNat / 4096 = 3 ∧ op.toNat % 512 = 0x3C := by omega
  have alu : ∀ {k}, op.toNat / 4096 * 4096 + op.toNat % 512 / 8 * 8 = 0x1000 * k + 0x40 →
      op.toNat / 4096 = k ∧ op.toNat % 512 / 8 = 8 := fun e => ⟨by omega, by omega⟩
  rw [handlerOf_iff]
  cases h with
  | nop => exact (hits_full _ _ _).mp hit
  | rts => exact (hits_full _ _ _).mp hit
  | jsr => exact (hits_full _ _ _).mp hit
  | bra => exact high (k := 0x60) ((hits_high _ _ _).mp hit)
  | beq => exact high (k := 0x67) ((hits_high _ _ _).mp hit)
  | bne => exact ⟨hbne rfl, high (k := 0x66) ((hits_high _ _ _).mp hit)⟩
  | moveWImm => exact move ((hits_move _ _ _).mp hit)
  | cmpW => exact alu (k := 0xB) ((hits_alu _ _ _).mp hit)
  | addW => exact alu (k := 0xD) ((hits_alu _ _ _).mp hit)

/-- Settles O4: both rows are the row of the handler that the word is dispatched to. -/
theorem noWordMatchesTwoRows : Obligations.NoWordMatchesTwoRows := by
  intro hasBne op r₁ r₂ hr₁ hr₂ hit₁ hit₂
  obtain ⟨h₁, rfl, hb₁⟩ := exists_tableRow_of_mem hr₁
  obtain ⟨h₂, rfl, hb₂⟩ := exists_tableRow_of_mem hr₂
  have d₁ : handlerOf { CoreParams.default with hasBne } op = some h₁ := handlerOf_of_hits hb₁ hit₁
  have d₂ : handlerOf { CoreParams.default with hasBne } op = some h₂ := handlerOf_of_hits hb₂ hit₂
  rw [Option.some.inj (d₁.symm.trans d₂)]

/-! ### The opcode words as numbers: fixed bits and fields -/

/-- The words of a branch (30_encoding.md R92 format BCC). -/
theorem branchWord_iff (op : Word) (k : Nat) (d : Byte) :
    op.toNat = 256 * k + d.toNat ↔ op.toNat / 256 = k ∧ d8Field op = d := by
  have := d.isLt
  rw [← BitVec.toNat_inj, d8Field_toNat]
  omega

/-- The words of MOVE.W #imm,Dn. -/
theorem moveWord_iff (op : Word) (n : RegNum) :
    op.toNat = 0x303C + 0x200 * n.val ↔ (op.toNat / 4096 = 3 ∧ op.toNat % 512 = 0x3C) ∧ regField op 9 = n := by
  have := n.isLt
  rw [Fin.ext_iff, regField_val]
  omega

/-- The words of CMP.W and ADD.W, by their high nibble. -/
theorem aluWord_iff (op : Word) (k : Nat) (x y : RegNum) :
    op.toNat = 0x1000 * k + 0x40 + 0x200 * x.val + y.val ↔
      (op.toNat / 4096 = k ∧ op.toNat % 512 / 8 = 8) ∧ regField op 9 = x ∧ regField op 0 = y := by
  have := x.isLt
  have := y.isLt
  rw [Fin.ext_iff, Fin.ext_iff, regField_val, regField_val]
  omega

/-- The words that the opcode map gives a handler (30_encoding.md R100). -/
def MapWord (p : CoreParams) (op : Word) : Handler → Prop
  | .nop => op = 0x4E71#16
  | .rts => op = 0x4E75#16
  | .jsr => op = 0x4EB9#16
  | .bra => ∃ d : Byte, op.toNat = 0x6000 + d.toNat
  | .beq => ∃ d : Byte, op.toNat = 0x6700 + d.toNat
  | .bne => p.hasBne = true ∧ ∃ d : Byte, op.toNat = 0x6600 + d.toNat
  | .moveWImm => ∃ n : RegNum, op.toNat = 0x303C + 0x200 * n.val
  | .cmpW => ∃ x y : RegNum, op.toNat = 0xB040 + 0x200 * x.val + y.val
  | .addW => ∃ x y : RegNum, op.toNat = 0xD040 + 0x200 * x.val + y.val

/-- The dispatch table is the opcode map: `handlerOf_iff` with the fields of each word named. -/
theorem handlerOf_iff_mapWord (p : CoreParams) (op : Word) (h : Handler) :
    handlerOf p op = some h ↔ MapWord p op h := by
  have high : ∀ k, op.toNat / 256 = k ↔ ∃ d : Byte, op.toNat = 256 * k + d.toNat := by
    simp only [branchWord_iff, exists_and_left, exists_eq', and_true, implies_true]
  have alu : ∀ k, (op.toNat / 4096 = k ∧ op.toNat % 512 / 8 = 8) ↔
      ∃ x y : RegNum, op.toNat = 0x1000 * k + 0x40 + 0x200 * x.val + y.val := by
    simp only [aluWord_iff, exists_and_left, exists_eq', and_true, implies_true]
  rw [handlerOf_iff]
  cases h with
  | nop => exact BitVec.toNat_inj (y := 0x4E71#16)
  | rts => exact BitVec.toNat_inj (y := 0x4E75#16)
  | jsr => exact BitVec.toNat_inj (y := 0x4EB9#16)
  | bra => exact high 0x60
  | beq => exact high 0x67
  | bne => exact and_congr_right fun _ => high 0x66
  | moveWImm => simp only [MapWord, moveWord_iff, exists_and_left, exists_eq', and_true]
  | cmpW => exact alu 0xB
  | addW => exact alu 0xD

/-- Settles O5: each handler's words are the map's (`handlerOf_iff_mapWord`), and a word is unknown when it is no
handler's. -/
theorem opcodeMapByNibble : Obligations.OpcodeMapByNibble := by
  intro p op
  have word := handlerOf_iff_mapWord p op
  refine ⟨word .nop, word .rts, word .jsr, word .bra, word .beq, word .bne, word .moveWImm, word .cmpW, word .addW, ?_⟩
  simp only [Option.eq_none_iff_forall_ne_some, ne_eq, word]
  constructor
  · intro unknown
    exact ⟨unknown .nop, unknown .rts, unknown .jsr,
      fun d => ⟨fun e => unknown .bra ⟨d, e⟩, fun e => unknown .beq ⟨d, e⟩⟩,
      fun hb d e => unknown .bne ⟨hb, d, e⟩, fun n e => unknown .moveWImm ⟨n, e⟩,
      fun x y => ⟨fun e => unknown .cmpW ⟨x, y, e⟩, fun e => unknown .addW ⟨x, y, e⟩⟩⟩
  · rintro ⟨hnop, hrts, hjsr, hbranch, hbne, hmove, halu⟩ h
    cases h with
    | nop => exact hnop
    | rts => exact hrts
    | jsr => exact hjsr
    | bra => exact fun ⟨d, e⟩ => (hbranch d).1 e
    | beq => exact fun ⟨d, e⟩ => (hbranch d).2 e
    | bne => exact fun ⟨hb, d, e⟩ => hbne hb d e
    | moveWImm => exact fun ⟨n, e⟩ => hmove n e
    | cmpW => exact fun ⟨x, y, e⟩ => (halu x y).1 e
    | addW => exact fun ⟨x, y, e⟩ => (halu x y).2 e

/-! ### The words of an instruction: encoding and assembling undo each other -/

/-- A short branch of the machine has the words of a branch that assemble to its operand: one word, or two under
`word_escape` with displacement byte 0 (41_control.md R165). -/
theorem encodeBranch_iff (p : CoreParams) (k : Nat) (hk : k < 256) (disp : BranchDisp) (op : Word) (exts : List Word) :
    (disp.wf p = true ∧ encodeBranch (BitVec.ofNat 16 (256 * k)) disp = op :: exts) ↔
      op.toNat / 256 = k ∧ exts.length = extCount p .bra op ∧ disp = branchOperand op exts := by
  have word : ∀ d : Byte, BitVec.ofNat 16 (256 * k) ||| d.setWidth 16 = op ↔ op.toNat / 256 = k ∧ d8Field op = d :=
    fun d => by rw [← branchWord_iff, ← branchWord_toNat k d hk, eq_comm, BitVec.toNat_inj]
  have base : BitVec.ofNat 16 (256 * k) = BitVec.ofNat 16 (256 * k) ||| (0#8).setWidth 16 := BitVec.or_zero.symm
  cases disp with
  | d8 d =>
    rw [encodeBranch, List.cons.injEq, word]
    match exts with
    | [] => grind [BranchDisp.wf, extCount, branchOperand]
    | w :: ws => simp [branchOperand]
  | escape w =>
    rw [encodeBranch, base, List.cons.injEq, word]
    match exts with
    | [] => simp [branchOperand]
    | v :: ws => grind [BranchDisp.wf, extCount, branchOperand, List.length_eq_zero_iff]

/-- The words of an instruction of the machine: an opcode word dispatched to a handler, then as many extension words
as the handler consumes, and they assemble to the instruction. -/
theorem assemble_of_encodeWords {p : CoreParams} {i : Instr} {op : Word} {exts : List Word} (hwf : i.wf p = true)
    (hw : encodeWords i = op :: exts) :
    ∃ h, handlerOf p op = some h ∧ exts.length = extCount p h op ∧ assemble h op exts = i := by
  cases i with
  | nop => cases hw; exact ⟨.nop, (handlerOf_iff _ _ _).mpr rfl, rfl, rfl⟩
  | rts => cases hw; exact ⟨.rts, (handlerOf_iff _ _ _).mpr rfl, rfl, rfl⟩
  | jsr target =>
    cases hw
    exact ⟨.jsr, (handlerOf_iff _ _ _).mpr rfl, rfl, congrArg Instr.jsr (longOf_parts target)⟩
  | bra disp =>
    obtain ⟨hop, hlen, rfl⟩ := (encodeBranch_iff p 0x60 (by decide) disp op exts).mp ⟨hwf, hw⟩
    exact ⟨.bra, (handlerOf_iff _ _ _).mpr hop, hlen, rfl⟩
  | beq disp =>
    obtain ⟨hop, hlen, rfl⟩ := (encodeBranch_iff p 0x67 (by decide) disp op exts).mp ⟨hwf, hw⟩
    exact ⟨.beq, (handlerOf_iff _ _ _).mpr hop, hlen, rfl⟩
  | bne disp =>
    obtain ⟨hb, hwf⟩ := Bool.and_eq_true_iff.mp hwf
    obtain ⟨hop, hlen, rfl⟩ := (encodeBranch_iff p 0x66 (by decide) disp op exts).mp ⟨hwf, hw⟩
    exact ⟨.bne, (handlerOf_iff _ _ _).mpr ⟨hb, hop⟩, hlen, rfl⟩
  | moveWImm n imm =>
    cases hw
    obtain ⟨hop, hn⟩ := (moveWord_iff _ n).mp (moveWord_toNat n)
    exact ⟨.moveWImm, (handlerOf_iff _ _ _).mpr hop, rfl, by rw [assemble, hn]; rfl⟩
  | cmpW x y =>
    cases hw
    obtain ⟨hop, hx, hy⟩ := (aluWord_iff _ 0xB x y).mp (cmpWord_toNat x y)
    exact ⟨.cmpW, (handlerOf_iff _ _ _).mpr hop, rfl, by rw [assemble, hx, hy]⟩
  | addW x y =>
    cases hw
    obtain ⟨hop, hx, hy⟩ := (aluWord_iff _ 0xD x y).mp (addWord_toNat x y)
    exact ⟨.addW, (handlerOf_iff _ _ _).mpr hop, rfl, by rw [assemble, hx, hy]⟩

/-- A word alone, from its value and the count of the words after it. -/
theorem singleton_eq_cons {v op : Word} {exts : List Word} (hv : v.toNat = op.toNat) (hlen : exts.length = 0) :
    [v] = op :: exts := by
  rw [BitVec.eq_of_toNat_eq hv, List.eq_nil_of_length_eq_zero hlen]

/-- What a handler's words assemble to is an instruction of the machine, with those words. -/
theorem encodeWords_assemble {p : CoreParams} {op : Word} {exts : List Word} {h : Handler}
    (hh : handlerOf p op = some h) (hlen : exts.length = extCount p h op) :
    (assemble h op exts).wf p = true ∧ encodeWords (assemble h op exts) = op :: exts := by
  have hop := (handlerOf_iff p op h).mp hh
  cases h with
  | nop => exact ⟨rfl, singleton_eq_cons hop.symm hlen⟩
  | rts => exact ⟨rfl, singleton_eq_cons hop.symm hlen⟩
  | jsr =>
    obtain ⟨hi, lo, rfl⟩ := List.length_eq_two.mp hlen
    cases Machine.handlerOf_eq_jsr hh
    exact ⟨rfl, congrArg₂ (fun a b => [0x4EB9#16, a, b]) (longOf_high hi lo) (longOf_low hi lo)⟩
  | bra => exact (encodeBranch_iff p 0x60 (by decide) _ op exts).mpr ⟨hop, hlen, rfl⟩
  | beq => exact (encodeBranch_iff p 0x67 (by decide) _ op exts).mpr ⟨hop, hlen, rfl⟩
  | bne =>
    obtain ⟨hb, hop⟩ := hop
    obtain ⟨hwf, hw⟩ := (encodeBranch_iff p 0x66 (by decide) _ op exts).mpr ⟨hop, hlen, rfl⟩
    exact ⟨Bool.and_eq_true_iff.mpr ⟨hb, hwf⟩, hw⟩
  | moveWImm =>
    obtain ⟨imm, rfl⟩ := List.length_eq_one_iff.mp hlen
    have hw := (moveWord_iff op _).mpr ⟨hop, rfl⟩
    exact ⟨rfl, congrArg (fun a => [a, imm]) (BitVec.eq_of_toNat_eq ((moveWord_toNat _).trans hw.symm))⟩
  | cmpW =>
    have hw := (aluWord_iff op 0xB _ _).mpr ⟨hop, rfl, rfl⟩
    exact ⟨rfl, singleton_eq_cons ((cmpWord_toNat _ _).trans hw.symm) hlen⟩
  | addW =>
    have hw := (aluWord_iff op 0xD _ _).mpr ⟨hop, rfl, rfl⟩
    exact ⟨rfl, singleton_eq_cons ((addWord_toNat _ _).trans hw.symm) hlen⟩

theorem encodeBranch_ne_nil (base : Word) (disp : BranchDisp) : encodeBranch base disp ≠ [] := by
  cases disp with
  | d8 d => exact List.cons_ne_nil _ _
  | escape w => exact List.cons_ne_nil _ _

/-- Every instruction has an opcode word. -/
theorem encodeWords_ne_nil (i : Instr) : encodeWords i ≠ [] := by
  cases i with
  | bra disp => exact encodeBranch_ne_nil _ disp
  | beq disp => exact encodeBranch_ne_nil _ disp
  | bne disp => exact encodeBranch_ne_nil _ disp
  | _ => exact List.cons_ne_nil _ _

/-! ### Decoding and encoding -/

/-- Settles O1: the words of an instruction of the machine are dispatched and assembled to it. -/
theorem decodeOfEncodeIsTheInstruction : Obligations.DecodeOfEncodeIsTheInstruction := by
  intro p i rest hwf
  obtain ⟨op, exts, hw⟩ := List.exists_cons_of_ne_nil (encodeWords_ne_nil i)
  obtain ⟨h, hh, hlen, rfl⟩ := assemble_of_encodeWords hwf hw
  rw [encode, hw, decode_words rest hh hlen.symm]

/-- Settles O2: the words dispatched and assembled to an instruction are its encoding. -/
theorem decodedBytesAreTheEncoding : Obligations.DecodedBytesAreTheEncoding := by
  intro p bytes rest i hd
  obtain ⟨op, k, exts, hk, hlen, rfl, rfl⟩ := decode_eq_ok hd
  obtain ⟨hwf, hw⟩ := encodeWords_assemble hk hlen
  exact ⟨hwf, by rw [encode, hw]⟩

/-- Settles O3: the decoder run on each of the spec's words. -/
theorem specWordsDecode : Obligations.SpecWordsDecode :=
  ⟨rfl, rfl, rfl, rfl, rfl, rfl, rfl, rfl, rfl⟩

end Sys2Proof

namespace Sys2Proof.Machine

/-! ### The step of a decoded instruction -/

/-- A step whose words AddressSpace holds is the meaning of the instruction they assemble to. -/
theorem step_of_fetchExts_done {s t : State} {op : Word} {k : Handler} {exts : List Word} (hrun : Running s)
    (hw : WordAt s s.pc op) (hk : handlerOf s.params op = some k)
    (hx : fetchExts s.pc (extCount s.params k op) (setPc (s.pc + 2#32) s) = .done exts t) :
    step s = exec (assemble k op exts) t := by
  simp only [step_of_running hrun, fetchInstr, fetch16_of_wordAt hw, hk, hx]

/-- Settles O29: the words that decode are the first words of the fetch stream, so the step fetches them. -/
theorem stepRunsTheDecodedInstruction : Obligations.StepRunsTheDecodedInstruction := by
  intro s i rest hrun hd
  obtain ⟨op, k, exts, hk, hlen, rfl, hbytes⟩ := decode_eq_ok hd
  have hwords := wordAt_of_prefix (prefix_of_bytes hbytes)
  have hop : WordAt s s.pc op := by
    have := hwords 0 (Nat.zero_lt_succ _)
    rwa [Nat.mul_zero, BitVec.add_zero] at this
  have hexts : fetchExts s.pc exts.length (setPc (s.pc + 2#32) s) =
      .done exts (setPc (s.pc + 2#32 + BitVec.ofNat 32 (2 * exts.length)) (setPc (s.pc + 2#32) s)) :=
    fetchExts_of_words fun j hj => by
      have := hwords (j + 1) (Nat.succ_lt_succ hj)
      rwa [← pc_past] at this
  have hsize : (encode (assemble k op exts)).length = 2 * (exts.length + 1) :=
    (Laws.EncodeLength.all _).trans (instrLength_assemble k op exts s.params hlen)
  rw [hlen] at hexts
  rw [step_of_fetchExts_done hrun hop hk hexts, ← hlen, pc_past, hsize]
  rfl

/-! ### The addressing modes that take extension words -/

/-- What follows an extension word that AddressSpace holds runs with pc past it (30_encoding.md R93). -/
theorem andThen_nextExt_of_wordAt {α : Type} {a0 : Long} {s : State} {w : Word} (h : WordAt s s.pc w)
    (f : Word → State → Access α) : andThen (nextExt a0 s) f = f w (setPc (s.pc + 2#32) s) := by
  rw [nextExt_of_wordAt h, andThen_done]

/-- An extension word that AddressSpace does not hold faults, whatever was to follow (40_effective_address.md R142). -/
theorem andThen_nextExt_of_noWordAt {α : Type} {a0 : Long} {s : State} (h : NoWordAt s s.pc)
    (f : Word → State → Access α) : ∃ t, andThen (nextExt a0 s) f = .raised t ∧
      FaultedBy t (.addressError s.pc .word .fetch) a0 :=
  ⟨_, by rw [nextExt_of_noWordAt h, andThen_raised], rfl, rfl⟩

/-- Settles O14: both modes are one extension word and then a masked sum. -/
theorem displacementModesAddASignedWord : Obligations.DisplacementModesAddASignedWord := fun _ _ _ _ =>
  ⟨fun _ h => ⟨andThen_nextExt_of_wordAt h _, andThen_nextExt_of_wordAt h _⟩,
    fun h => ⟨andThen_nextExt_of_noWordAt h _, andThen_nextExt_of_noWordAt h _⟩⟩

/-- The scaled index register as a number (40_effective_address.md R130). -/
theorem scaledIndex_toNat (w : Word) (i : RegNum) (s : State) (hi : i.val = w.toNat / 2 ^ 12 % 8) :
    (indexValue w s * indexScale w).toNat =
      (if w.toNat / 2 ^ 15 % 2 = 1 then s.a[i] else s.d[i]).toNat * 2 ^ (w.toNat / 2 ^ 9 % 4) % 2 ^ 32 := by
  have field : regField w 12 = i := Fin.ext ((regField_val w 12).trans hi.symm)
  have small : 2 ^ (w.toNat / 2 ^ 9 % 4) < 2 ^ 32 := Nat.pow_lt_pow_right (by omega) (by omega)
  have scale : (indexScale w).toNat = 2 ^ (w.toNat / 2 ^ 9 % 4) := by
    rw [indexScale, field_toNat, BitVec.toNat_ofNat]
    exact Nat.mod_eq_of_lt small
  simp only [BitVec.toNat_mul, scale, indexValue, field, bit_iff]

/-- The address of an indexed mode, its displacement byte the low byte of the index word. -/
theorem indexedAddr_eq (base : Long) (w : Word) (s : State) :
    indexedAddr base w s = (base + (w.setWidth 8).signExtend 32 + indexValue w s * indexScale w) &&& 0x00FFFFFF#32 := by
  rw [indexedAddr, ← BitVec.setWidth_eq_extractLsb' (by decide)]
  rfl

/-- Settles O15: both modes are one extension word and then the sum with the scaled index register. -/
theorem indexedModesAddAScaledRegister : Obligations.IndexedModesAddAScaledRegister := by
  intro a0 r n s
  refine ⟨fun w i h hi => ⟨_, scaledIndex_toNat w i s hi, ?_, ?_⟩,
    fun h => ⟨andThen_nextExt_of_noWordAt h _, andThen_nextExt_of_noWordAt h _⟩⟩
  · rw [← indexedAddr_eq]
    exact andThen_nextExt_of_wordAt h _
  · rw [← indexedAddr_eq]
    exact andThen_nextExt_of_wordAt h _

/-- A zero-extended word is below 2^24, so the mask leaves it. -/
theorem maskAddr_word (w : Word) : maskAddr (w.setWidth 32) = w.setWidth 32 := by
  have := w.isLt
  apply BitVec.eq_of_toNat_eq
  rw [maskAddr_toNat, BitVec.toNat_setWidth]
  omega

theorem pc_past_two (pc : Long) : pc + 2#32 + 2#32 = pc + 4#32 := by rw [BitVec.add_assoc]; rfl

/-- Two extension words that AddressSpace holds. -/
theorem andThen_nextExt_twice {α : Type} {a0 : Long} {s : State} {hi lo : Word} (h : WordAt s s.pc hi)
    (h2 : WordAt s (s.pc + 2#32) lo) (f : Word → Word → State → Access α) :
    andThen (nextExt a0 s) (fun u s1 => andThen (nextExt a0 s1) (f u)) = f hi lo (setPc (s.pc + 4#32) s) := by
  have h2' : WordAt (setPc (s.pc + 2#32) s) (setPc (s.pc + 2#32) s).pc lo := h2
  rw [andThen_nextExt_of_wordAt h, andThen_nextExt_of_wordAt h2', setPc_pc, pc_past_two]
  rfl

/-- A second extension word that AddressSpace does not hold. -/
theorem andThen_nextExt_second_outside {α : Type} {a0 : Long} {s : State} {hi : Word} (h : WordAt s s.pc hi)
    (h2 : NoWordAt s (s.pc + 2#32)) (f : Word → Word → State → Access α) :
    ∃ t, andThen (nextExt a0 s) (fun u s1 => andThen (nextExt a0 s1) (f u)) = .raised t ∧
      FaultedBy t (.addressError (s.pc + 2#32) .word .fetch) a0 := by
  rw [andThen_nextExt_of_wordAt h]
  exact andThen_nextExt_of_noWordAt (s := setPc (s.pc + 2#32) s) h2 _

/-- Settles O16: each mode is one extension word, or two, and then a value of them. -/
theorem absoluteAndImmediateModes : Obligations.AbsoluteAndImmediateModes := by
  intro a0 s
  refine ⟨fun hi h => ⟨fun n => ?_, ?_, andThen_nextExt_of_wordAt h _, fun lo h2 => ?_, fun h2 => ?_⟩,
    fun h n => ⟨andThen_nextExt_of_noWordAt h _, andThen_nextExt_of_noWordAt h _, ?_⟩⟩
  · rw [← maskAddr_word]
    exact andThen_nextExt_of_wordAt h _
  · rw [BitVec.setWidth_eq_extractLsb' (x := hi) (by decide)]
    exact andThen_nextExt_of_wordAt h _
  · exact ⟨fun n => andThen_nextExt_twice h h2 _, andThen_nextExt_twice h h2 _⟩
  · exact ⟨fun n => andThen_nextExt_second_outside h h2 _, andThen_nextExt_second_outside h h2 _⟩
  · cases n <;> exact andThen_nextExt_of_noWordAt h _

end Sys2Proof.Machine
end

section
/-! The statements about the effective-address resolver (40_effective_address.md): the words and the register step of
each mode, the register and indirect modes, and the read and write paths. -/

namespace Sys2Proof.Machine

/-! ### The read and write paths -/

/-- The low bits of a long whose other bits were cleared. -/
theorem low_of_low {k : Nat} (hk : k ≤ 32) (v : Long) :
    ((v.extractLsb' 0 k).setWidth 32).extractLsb' 0 k = v.extractLsb' 0 k := by
  rw [← BitVec.setWidth_eq_extractLsb' hk, ← BitVec.setWidth_eq_extractLsb' hk, BitVec.setWidth_setWidth_of_le _ hk,
    BitVec.setWidth_eq]

/-- Only the low `8 n` bits of a value are stored (20_memory.md R63 to R65). -/
theorem writeSized_maskTo (m : Memory) (addr : Nat) (v : Long) (n : Size) :
    writeSized m addr (maskTo n v) n = writeSized m addr v n := by
  cases n with
  | byte => exact congrArg (write8 m addr) (low_of_low (by decide) v)
  | word => exact congrArg (write16 m addr) (low_of_low (by decide) v)
  | long => rfl

/-- `MemWrite` stores the low `8 n` bits alone (20_memory.md R66). -/
theorem memWrite_maskTo (a0 addr v : Long) (n : Size) (s : State) :
    memWrite a0 addr n (maskTo n v) s = memWrite a0 addr n v s := by
  rw [memWrite, memWrite, writeSized_maskTo]

/-- Settles O58, with the masked value for `w`. -/
theorem memoryAndImmediateLocations : Obligations.MemoryAndImmediateLocations := fun a0 addr v n s =>
  ⟨rfl, maskTo n v, maskTo_toNat n v, (memWrite_maskTo a0 addr v n s).symm, rfl⟩

/-- A write leaves pc (40_effective_address.md R138). -/
theorem writeLoc_pc {a0 v : Long} {loc : Loc} {n : Size} {s t : State} (h : writeLoc a0 loc n v s = .done () t) :
    t.pc = s.pc := by
  rcases writeLoc_done h with ⟨r, -, rfl⟩ | ⟨r, -, rfl⟩ | ⟨addr, -, -, rfl⟩ <;> rfl

/-- Only the write of an address register changes one (40_effective_address.md R121, R123, R125). -/
theorem writeLoc_a {a0 v : Long} {loc : Loc} {n : Size} {s t : State} (h : writeLoc a0 loc n v s = .done () t)
    (hloc : ∀ r, loc ≠ .addrReg r) : t.a = s.a := by
  rcases writeLoc_done h with ⟨r, -, rfl⟩ | ⟨r, rfl, -⟩ | ⟨addr, -, -, rfl⟩
  · rfl
  · exact absurd rfl (hloc r)
  · rfl

/-! ### The register and indirect modes -/

/-- Settles O12: the value of a masked register and of a partly overwritten one; the rest is each mode's own rule. -/
theorem registerModesReadAndWrite : Obligations.RegisterModesReadAndWrite := fun _ v r n s =>
  ⟨rfl, ⟨maskTo n s.d[r], rfl, maskTo_toNat n s.d[r]⟩,
    ⟨overwriteLow s.d[r] v n, rfl, overwriteLow_toNat n s.d[r] v⟩, rfl, rfl, rfl⟩

/-- Settles O13: each address is masked, before the step of `(Ar)+` and after that of `-(Ar)`. -/
theorem indirectModesStepTheRegisterOnce : Obligations.IndirectModesStepTheRegisterOnce := fun _ _ _ _ =>
  ⟨⟨_, rfl, maskAddr_toNat _⟩, ⟨_, rfl, maskAddr_toNat _⟩, ⟨_, rfl, maskAddr_toNat _⟩⟩

/-! ### The words and the register step of a mode -/

theorem stepRegister_postInc (reg : RegNum) (n : Size) (s : State) :
    stepRegister 3 reg n s = setA reg (s.a[reg] + BitVec.ofNat 32 (sizeBytes n)) s := rfl

theorem stepRegister_preDec (reg : RegNum) (n : Size) (s : State) :
    stepRegister 4 reg n s = setA reg (s.a[reg] - BitVec.ofNat 32 (sizeBytes n)) s := rfl

/-- No mode but `(Ar)+` and `-(Ar)` steps a register (40_effective_address.md R127, R128). -/
theorem stepRegister_of_ne {mode reg : RegNum} {n : Size} {s : State} (h3 : mode ≠ 3) (h4 : mode ≠ 4) :
    stepRegister mode reg n s = s := by
  rw [stepRegister, if_neg h3, if_neg h4]

theorem resolve_pc {a0 : Long} {mode reg : RegNum} {n : Size} {s t : State} {loc : Loc}
    (h : resolve a0 mode reg n s = .done loc t) : t.pc = s.pc + BitVec.ofNat 32 (extBytes mode reg n) := by
  obtain ⟨rfl, -⟩ := resolve_done h
  rw [setPc_pc]

theorem resolve_a {a0 : Long} {mode reg : RegNum} {n : Size} {s t : State} {loc : Loc}
    (h : resolve a0 mode reg n s = .done loc t) : t.a = (stepRegister mode reg n s).a := by
  obtain ⟨rfl, -⟩ := resolve_done h
  rw [setPc_a]

/-- The table of 40_effective_address.md R138, by the number of bytes. -/
theorem extBytes_table {mode reg : RegNum} (n : Size) (hreg : mode = 7 → reg.val < 5) :
    (extBytes mode reg n = 4 ∧ mode = 7 ∧ (reg = 1 ∨ (reg = 4 ∧ n = .long))) ∨
    (extBytes mode reg n = 2 ∧ (mode = 5 ∨ mode = 6 ∨
      (mode = 7 ∧ (reg = 0 ∨ reg = 2 ∨ reg = 3 ∨ (reg = 4 ∧ n ≠ .long))))) ∨
    (extBytes mode reg n = 0 ∧ mode.val ≤ 4) := by
  cases n <;> decide +revert

/-- Registers 5 to 7 of mode 7 name no mode (40_effective_address.md R136). -/
theorem resolve_mode7_raised (a0 : Long) {reg : RegNum} (n : Size) (s : State) (h : 5 ≤ reg.val) :
    resolve a0 7 reg n s = .raised (raise (.invalidAddressingMode 7 reg) a0 s) := by
  show resolveMode7 a0 reg n s = _
  unfold resolveMode7
  split
  case h_6 => rfl
  all_goals omega

/-- Settles O11: pc moves by the mode's bytes (`resolve_pc`), which R138's table gives. -/
theorem resolveAdvancesPcByItsWords : Obligations.ResolveAdvancesPcByItsWords := by
  refine ⟨fun a0 mode reg n s t loc h => ?_, fun a0 v loc n s t => readLoc_done, fun a0 v loc n s t => writeLoc_pc,
    fun a0 reg n s hreg => ⟨_, resolve_mode7_raised a0 n s hreg⟩⟩
  obtain ⟨-, hreg, -⟩ := resolve_done h
  rw [resolve_pc h]
  rcases extBytes_table n hreg with ⟨he, hmode⟩ | ⟨he, hmode⟩ | ⟨he, hmode⟩
  · exact .inl ⟨by rw [he], hmode⟩
  · exact .inr (.inl ⟨by rw [he], hmode⟩)
  · exact .inr (.inr ⟨by rw [he, BitVec.add_zero], hmode⟩)

/-- Settles O18: the read changes nothing, the write leaves pc (`writeLoc_pc`) and, but at mode 1, the address registers
(`writeLoc_a`); so pc and the registers are those that the one `Resolve` left. -/
theorem readThenWriteResolvesOnce : Obligations.ReadThenWriteResolvesOnce := by
  intro a0 v x mode reg n s s₁ s₂ s₃ loc hres hread hwrite
  obtain rfl := readLoc_done hread
  obtain ⟨-, -, -, hloc, -⟩ := resolve_done hres
  have kept : mode ≠ 1 → s₃.a = s₂.a := fun h1 => writeLoc_a hwrite fun r hr => h1 (hloc r hr)
  have hstep := resolve_a hres
  refine ⟨(writeLoc_pc hwrite).trans (resolve_pc hres), kept, ?_, ?_, fun h1 h3 h4 => ?_⟩
  · rintro rfl
    rw [kept (by decide), hstep, stepRegister_postInc, setA_a]
  · rintro rfl
    rw [kept (by decide), hstep, stepRegister_preDec, setA_a]
  · rw [kept h1, hstep, stepRegister_of_ne h3 h4]

end Sys2Proof.Machine
end

section
/-! The statements about the control-transfer instructions (41_control.md): what each one does in a state whose pc is
past it, a call and its return, and the branches as steps from their opcode words. -/

namespace Sys2Proof.Machine

/-! ### NOP, RTS and JSR -/

/-- Settles O20: it is NOP's meaning. -/
theorem nopChangesNothing : Obligations.NopChangesNothing := fun _ => rfl

/-- Settles O21, by the two ways an RTS ends. -/
theorem rtsPopsThePc : Obligations.RtsPopsThePc := by
  intro s
  rcases execRts_cases s with ⟨hb, e⟩ | ⟨hb, e⟩
  · exact ⟨fun _ => ⟨_, e, rfl, read32_toNat _ _⟩, fun hn => absurd hb (Nat.not_lt.mpr hn)⟩
  · exact ⟨fun hin => absurd hin (Nat.not_lt.mpr hb), fun _ => ⟨_, e, rfl, rfl⟩⟩

/-- Settles O22, by the two ways a JSR ends. -/
theorem jsrPushesAndJumps : Obligations.JsrPushesAndJumps := by
  intro target s
  rcases execJsr_cases target s with ⟨hb, e⟩ | ⟨hb, e⟩
  · exact ⟨fun _ => e, fun hn => absurd hb (Nat.not_lt.mpr hn)⟩
  · exact ⟨fun hin => absurd hin (Nat.not_lt.mpr hb), fun _ => ⟨_, e, rfl, rfl⟩⟩

/-- A 32-bit read depends on its four bytes alone (20_memory.md R64). -/
theorem read32_congr {m m' : Memory} {a : Nat} (h : ∀ k < 4, memByte m (a + k) = memByte m' (a + k)) :
    read32 m a = read32 m' a := by
  simp only [read32, read16, Nat.add_assoc]
  rw [h 1 (by omega), h 2 (by omega), h (2 + 1) (by omega), show memByte m a = memByte m' a from h 0 (by omega)]

/-- Settles O24: the long that RTS pops is the one JSR pushed, and the step up of A7 undoes the step down. -/
theorem callThenReturnRestores : Obligations.CallThenReturnRestores := by
  intro target s t u hwf _ hcall hf hsp hparams hbytes
  rcases execJsr_cases target s with ⟨hb, e⟩ | ⟨-, e⟩ <;> cases hcall.symm.trans e
  · have hpushed : u.a[spReg] = s.a[spReg] - 4#32 := by
      rw [hsp, setPc_a, setMem_a, setA_a, getElem_set_regNum, if_pos rfl]
    rw [← hsp, hpushed] at hbytes
    have hpop : read32 u.mem (maskAddr (s.a[spReg] - 4#32)).toNat = s.pc :=
      (read32_congr hbytes).trans (read32_write32 _ _ _ hwf)
    rcases execRts_cases u with ⟨-, e'⟩ | ⟨hout, -⟩
    · rw [hpushed, hpop, BitVec.sub_add_cancel] at e'
      exact e'
    · rw [hpushed, hparams] at hout
      exact absurd hb (Nat.not_lt.mpr hout)
  · cases hf

/-! ### The branches -/

/-- A branch on the negation of a condition. -/
theorem branchIf_not (b : Bool) (disp : BranchDisp) (s : State) :
    branchIf (!b) disp s = .next (if b = true then s else setPc (branchTarget disp s) s) := by
  cases b <;> rfl

/-- Settles O25: each is a branch on its condition, BNE.S on the negation of Z. -/
theorem branchesMoveOnlyThePc : Obligations.BranchesMoveOnlyThePc := fun d w s =>
  ⟨rfl, rfl, rfl, rfl, branchIf_not (zFlag s) (.d8 d) s, branchIf_not (zFlag s) (.escape w) s⟩

/-- A handler of format BCC, and when its branch is taken as a function of SR (30_encoding.md R92, 41_control.md R165):
the extension words it consumes and the meaning of what it assembles. -/
structure BranchesWhen (k : Handler) (taken : Word → Bool) : Prop where
  extCount_eq (p : CoreParams) (op : Word) :
    extCount p k op = if d8Field op = 0#8 ∧ p.branchD8Zero = .wordEscape then 1 else 0
  exec_eq (op : Word) (exts : List Word) (s : State) :
    exec (assemble k op exts) s = branchIf (taken s.sr) (branchOperand op exts) s

theorem branchesWhen_bra : BranchesWhen .bra fun _ => true := ⟨fun _ _ => rfl, fun _ _ _ => rfl⟩

theorem branchesWhen_beq : BranchesWhen .beq fun sr => sr.getLsbD 2 := ⟨fun _ _ => rfl, fun _ _ _ => rfl⟩

theorem branchesWhen_bne : BranchesWhen .bne fun sr => !sr.getLsbD 2 := ⟨fun _ _ => rfl, fun _ _ _ => rfl⟩

section
variable {k : Handler} {taken : Word → Bool} {s : State} {op : Word} (hb : BranchesWhen k taken)
  (hrun : Running s) (hw : WordAt s s.pc op) (hk : handlerOf s.params op = some k)
include hb hrun hw hk

/-- The step of a branch without an escape word: from `a0 + 2` by the displacement byte (41_control.md R165). -/
theorem BranchesWhen.step_d8 (hno : ¬(d8Field op = 0#8 ∧ s.params.branchD8Zero = .wordEscape)) :
    step s = .next { s with
      pc := if taken s.sr = true then s.pc + 2#32 + (d8Field op).signExtend 32 else s.pc + 2#32 } := by
  have hx : fetchExts s.pc (extCount s.params k op) (setPc (s.pc + 2#32) s) = .done [] (setPc (s.pc + 2#32) s) := by
    rw [hb.extCount_eq, if_neg hno, fetchExts_zero]
  rw [step_of_fetchExts_done hrun hw hk hx, hb.exec_eq, branchIf_eq]
  rfl

/-- The step of a branch with an escape word: from `a0 + 2` by the word, or past the word (41_control.md R165, R167). -/
theorem BranchesWhen.step_escape {w : Word} (h0 : d8Field op = 0#8) (hp : s.params.branchD8Zero = .wordEscape)
    (hext : WordAt s (s.pc + 2#32) w) :
    step s = .next { s with
      pc := if taken s.sr = true then s.pc + 2#32 + w.signExtend 32 else s.pc + 4#32 } := by
  have hx : fetchExts s.pc (extCount s.params k op) (setPc (s.pc + 2#32) s) = .done [w] (setPc (s.pc + 4#32) s) := by
    rw [hb.extCount_eq, if_pos ⟨h0, hp⟩, fetchExts_one hext, setPc_pc, pc_past_two]
    rfl
  have hbase : s.pc + 4#32 - 2#32 = s.pc + 2#32 := by rw [← pc_past_two, BitVec.add_sub_cancel]
  rw [step_of_fetchExts_done hrun hw hk hx, hb.exec_eq, branchIf_eq, ← hbase]
  rfl

/-- The step of a branch whose escape word AddressSpace does not hold (60_exceptions.md R268). -/
theorem BranchesWhen.step_escape_outside (h0 : d8Field op = 0#8) (hp : s.params.branchD8Zero = .wordEscape)
    (hn : NoWordAt s (s.pc + 2#32)) :
    step s = .next (raise (.addressError (s.pc + 2#32) .word .fetch) s.pc (setPc (s.pc + 2#32) s)) :=
  step_of_fetchExts_raised hrun hw hk
    (by rw [hb.extCount_eq, if_pos ⟨h0, hp⟩]; exact fetchExts_outside (k := 0) hn)

/-- The step of a branch in every case of its displacement byte and of BRANCH_D8_ZERO. -/
theorem BranchesWhen.step_cases {d : Byte} (hd : d8Field op = d) :
    (d ≠ 0#8 → step s = .next { s with
      pc := if taken s.sr = true then s.pc + 2#32 + d.signExtend 32 else s.pc + 2#32 }) ∧
    (d = 0#8 → s.params.branchD8Zero = .zeroOffset → step s = .next { s with pc := s.pc + 2#32 }) ∧
    (d = 0#8 → s.params.branchD8Zero = .wordEscape → ∀ w, WordAt s (s.pc + 2#32) w →
      step s = .next { s with
        pc := if taken s.sr = true then s.pc + 2#32 + w.signExtend 32 else s.pc + 4#32 }) ∧
    (d = 0#8 → s.params.branchD8Zero = .wordEscape → NoWordAt s (s.pc + 2#32) →
      ∃ t, step s = .next t ∧ FaultedBy t (.addressError (s.pc + 2#32) .word .fetch) s.pc) := by
  subst hd
  refine ⟨fun hne => hb.step_d8 hrun hw hk fun h => hne h.1, fun h0 hp => ?_,
    fun h0 hp w hext => hb.step_escape hrun hw hk h0 hp hext,
    fun h0 hp hn => ⟨_, hb.step_escape_outside hrun hw hk h0 hp hn, rfl, rfl⟩⟩
  have hzero : s.pc + 2#32 + (0#8).signExtend 32 = s.pc + 2#32 := BitVec.add_zero _
  rw [hb.step_d8 hrun hw hk (by simp [hp]), h0, hzero, ite_self]

end

/-- Settles O31: BRA.S is the branch that is always taken. -/
theorem braStepFromItsWord : Obligations.BraStepFromItsWord := fun s d hrun hw =>
  branchesWhen_bra.step_cases hrun hw (handlerOf_bra s.params d) (d8Field_branchWord 0x60 d (by omega))

/-- Settles O32: BEQ.S is the branch taken when Z is 1, BNE.S the one taken when Z is 0. -/
theorem conditionalBranchStepFromItsWord : Obligations.ConditionalBranchStepFromItsWord := by
  intro s d whenZ hrun hw hbne
  cases whenZ with
  | true =>
    exact branchesWhen_beq.step_cases hrun hw (handlerOf_beq s.params d) (d8Field_branchWord 0x67 d (by omega))
  | false =>
    have hhas : s.params.hasBne = true := hbne.resolve_left Bool.false_ne_true
    have h := branchesWhen_bne.step_cases hrun hw (handlerOf_bne s.params hhas d)
      (d8Field_branchWord 0x66 d (by omega))
    simpa only [Bool.not_eq_true'] using h

end Sys2Proof.Machine
end

section
/-! The statements about the data instructions (42_data.md): MOVE.W, CMP.W and ADD.W in every state, and MOVE.W as a
step from its opcode word. -/

namespace Sys2Proof.Machine

/-! ### The ALU and the low word of a register -/

/-- `Add16` as a number (42_data.md R190). -/
theorem add16_toNat (a b : Long) : (add16 a b).toNat = (a.toNat + b.toNat) % 2 ^ 16 := by
  rw [add16, BitVec.toNat_add, field_toNat, field_toNat]
  omega

/-- `Sub16` is 0 exactly when the low words are equal (42_data.md R191). -/
theorem sub16_eq_zero_iff (a b : Long) : sub16 a b = 0#16 ↔ a.toNat % 2 ^ 16 = b.toNat % 2 ^ 16 := by
  rw [sub16, ← BitVec.toNat_inj, BitVec.toNat_sub, field_toNat, field_toNat, BitVec.toNat_ofNat]
  omega

/-- A zero-extended word is its own sized part. -/
theorem maskTo_word_setWidth (w : Word) : maskTo .word (w.setWidth 32) = w.setWidth 32 := by
  have := w.isLt
  apply BitVec.eq_of_toNat_eq
  rw [maskTo_toNat, BitVec.toNat_setWidth, sizeBytes]
  omega

/-- A register whose low word was replaced by a word (40_effective_address.md R123). -/
theorem overwriteLow_word_toNat (old : Long) (w : Word) :
    (overwriteLow old (w.setWidth 32) .word).toNat = old.toNat / 2 ^ 16 * 2 ^ 16 + w.toNat := by
  have := w.isLt
  rw [overwriteLow_toNat, BitVec.toNat_setWidth, sizeBytes]
  omega

/-! ### SetZ -/

theorem srWithZ_bit_two (sr : Word) (z : Bool) : (srWithZ sr z).getLsbD 2 = z := by
  rw [srWithZ_getLsbD, if_pos rfl]

theorem srWithZ_bit_of_ne (sr : Word) (z : Bool) {k : Nat} (hk : k ≠ 2) :
    (srWithZ sr z).getLsbD k = sr.getLsbD k := by
  rw [srWithZ_getLsbD, if_neg hk]

/-! ### The instructions -/

/-- Settles O26, from the one way a MOVE.W ends (`execMoveWImm_eq`). -/
theorem moveWImmStoresTheWord : Obligations.MoveWImmStoresTheWord := fun n imm s =>
  ⟨overwriteLow s.d[n] (imm.setWidth 32) .word, srWithZ s.sr (imm == 0#16),
    maskTo_word_setWidth imm ▸ execMoveWImm_eq n imm s, overwriteLow_word_toNat _ _, srWithZ_bit_two _ _,
    fun _ => srWithZ_bit_of_ne _ _⟩

/-- Settles O27: Z is set from a difference that is 0 exactly when the low words are equal. -/
theorem cmpWSetsOnlyZ : Obligations.CmpWSetsOnlyZ := by
  intro x y s
  refine ⟨srWithZ s.sr (sub16 s.d[x] s.d[y] == 0#16), rfl, ?_, fun _ => srWithZ_bit_of_ne _ _⟩
  rw [srWithZ_bit_two, beq_iff_eq, sub16_eq_zero_iff]

/-- Settles O28: both the low word stored and Z are the sum's (`add16_toNat`). -/
theorem addWWrapsAt16Bits : Obligations.AddWWrapsAt16Bits := by
  intro x y s
  have hsum := add16_toNat s.d[x] s.d[y]
  have hw := overwriteLow_word_toNat s.d[x] (add16 s.d[x] s.d[y])
  refine ⟨overwriteLow s.d[x] ((add16 s.d[x] s.d[y]).setWidth 32) .word, srWithZ s.sr (add16 s.d[x] s.d[y] == 0#16),
    rfl, by omega, by omega, ?_, fun _ => srWithZ_bit_of_ne _ _⟩
  rw [srWithZ_bit_two, beq_iff_eq, ← BitVec.toNat_inj, hsum]
  rfl

/-! ### MOVE.W as a step -/

/-- The opcode word of MOVE.W #imm,Dn and its extension word make that instruction (30_encoding.md R92). -/
theorem assemble_moveWord (n : RegNum) (w : Word) :
    assemble .moveWImm (0x303C#16 + BitVec.ofNat 16 (0x200 * n.val)) [w] = .moveWImm n w := by
  have hfield : regField (0x303C#16 + BitVec.ofNat 16 (0x200 * n.val)) 9 = n := by decide +revert
  rw [assemble, hfield]
  rfl

/-- `Resolve(7, 4, 2)` where AddressSpace holds the extension word (40_effective_address.md R135). -/
theorem resolve_imm_word {a0 : Long} {s : State} {w : Word} (h : WordAt s s.pc w) :
    resolve a0 7 4 .word s = .done (.imm (w.setWidth 32)) (setPc (s.pc + 2#32) s) :=
  andThen_nextExt_of_wordAt h _

/-- `Resolve(7, 4, 2)` where it does not (40_effective_address.md R142). -/
theorem resolve_imm_word_outside {a0 : Long} {s : State} (h : NoWordAt s s.pc) :
    resolve a0 7 4 .word s = .raised (raise (.addressError s.pc .word .fetch) a0 s) := by
  show andThen (nextExt a0 s) _ = _
  rw [nextExt_of_noWordAt h, andThen_raised]

/-- What MOVE.W does once its immediate is resolved: read, destination, write, Z, none of which raises, so the
address a fault would record is free (42_data.md R193). -/
theorem execMoveWImm_sequence (a0 : Long) (n : RegNum) (imm : Word) (s : State) :
    execMoveWImm n imm s = endStep (andThen (readLoc a0 (.imm (imm.setWidth 32)) .word s) fun v s₂ =>
      andThen (resolve a0 0 n .word s₂) fun dst s₃ =>
        andThen (writeLoc a0 dst .word v s₃) fun _ s₄ => .done () (setZ (v.setWidth 16) s₄)) := by
  have hlow (v : Long) : v.setWidth 16 = v.extractLsb' 0 16 := BitVec.setWidth_eq_extractLsb' (by decide)
  simp only [hlow]
  rfl

/-- Settles O33: the extension word is fetched early by the step and by `Resolve(7, 4, 2)` alike, so both go on with the
same immediate and pc, or fault with the same record. -/
theorem moveStepIsTheResolverSequence : Obligations.MoveStepIsTheResolverSequence := by
  intro s n hrun hw
  have hk := handlerOf_moveWImm s.params n
  show step s = endStep (andThen (resolve s.pc 7 4 .word (setPc (s.pc + 2#32) s)) _)
  rcases nextExt_cases s.pc (setPc (s.pc + 2#32) s) with ⟨hext, -⟩ | ⟨hout, -⟩
  · rw [step_of_fetchExts_done hrun hw hk (fetchExts_one hext), assemble_moveWord, resolve_imm_word hext, andThen_done]
    exact execMoveWImm_sequence s.pc n _ _
  · rw [step_of_fetchExts_raised hrun hw hk (fetchExts_outside (k := 0) hout), resolve_imm_word_outside hout,
      andThen_raised, endStep_raised]

end Sys2Proof.Machine
end

section
/-! The statements about the tile compositor (43_tile_compositor.md): the colour of an entry, the colour of a screen
position as arithmetic on video memory, and the frame pixel by pixel. -/

namespace Sys2Proof.Machine

/-! ### Colours (R222 to R225) -/

theorem pixelColour_zero (p : VideoParams) (v : Video) (row : Nat) : pixelColour p v row 0 = none := if_pos rfl

theorem pixelColour_of_absentRow (p : VideoParams) (v : Video) {row : Nat} (ci : Nat) (h : 4 ≤ row) :
    pixelColour p v row ci = none := by
  rw [pixelColour, if_pos h, ite_self]

theorem pixelColour_of_entry (p : VideoParams) (v : Video) {row ci : Nat} (hci : ci ≠ 0) (hrow : row < 4) :
    pixelColour p v row ci = some (decodeColour p.channelRounding (cramEntry v (16 * row + ci))) := by
  rw [pixelColour, if_neg hci, if_neg (by omega)]

/-- Settles O54, clause by clause of `pixelColour`. -/
theorem transparentAndAbsentPaletteRows : Obligations.TransparentAndAbsentPaletteRows := fun p v row ci =>
  ⟨fun hci => hci ▸ pixelColour_zero p v row, pixelColour_of_absentRow p v ci, pixelColour_of_entry p v⟩

/-- A field within its range is scaled to a byte, so no bit of the quotient is lost. -/
theorem scaleChannel_floor_toNat {field top : Nat} (h : field ≤ top) (ht : 0 < top) :
    (scaleChannel .floor field top).toNat = field * 255 / top :=
  Nat.mod_eq_of_lt ((Nat.div_lt_iff_lt_mul ht).mpr (by omega))

/-- Nor does the half of `top` that rounds to nearest carry past 255. -/
theorem scaleChannel_nearest_toNat {field top : Nat} (h : field ≤ top) (ht : 0 < top) :
    (scaleChannel .nearest field top).toNat = (field * 255 + top / 2) / top :=
  Nat.mod_eq_of_lt ((Nat.div_lt_iff_lt_mul ht).mpr (by omega))

/-- Settles O55: each channel is a field of the entry (`field_toNat`), scaled. -/
theorem coloursDecodeExactly : Obligations.ColoursDecodeExactly := by
  intro c9
  have hr : (c9.extractLsb' 0 3).toNat = c9.toNat % 8 := by rw [field_toNat, Nat.pow_zero, Nat.div_one]; rfl
  have hg : (c9.extractLsb' 3 3).toNat = c9.toNat / 8 % 8 := field_toNat c9 3 3
  have hb : (c9.extractLsb' 6 2).toNat = c9.toNat / 64 % 4 := field_toNat c9 6 2
  simp only [decodeColour, hr, hg, hb]
  refine ⟨scaleChannel_floor_toNat ?_ ?_, scaleChannel_floor_toNat ?_ ?_, scaleChannel_floor_toNat ?_ ?_,
    scaleChannel_nearest_toNat ?_ ?_, scaleChannel_nearest_toNat ?_ ?_, scaleChannel_nearest_toNat ?_ ?_⟩ <;> omega

/-! ### The pixel of a tile and of a cell (R217 to R226) -/

/-- The colour of pattern row `i` and pattern column `j` of the tile an entry selects, if they give one. -/
def tilePixel (p : VideoParams) (v : Video) (e : Word) (i j : Nat) : Option Rgb :=
  (patternRow p v (tileIndex e) i).bind fun q => pixelColour p v (paletteRow e) (colourIndex q j)

/-- The colour that cell `(r, c)` shows at its row `i` and column `j`, if it shows one there. -/
def cellPixel (p : VideoParams) (v : Video) (r c i j : Nat) : Option Rgb :=
  (cellEntry p v r c).bind fun e => tilePixel p v e (flipped (vflip e) i) (flipped (hflip e) j)

/-- A screen position shows the cell pixel at its place in the scrolled grid (R230). -/
theorem screenPixel_eq_cellPixel (p : VideoParams) (v : Video) (sy sx : Nat) :
    screenPixel p v sy sx =
      cellPixel p v ((sy + vscroll p v % 8) / 8) ((sx + hscroll p v % 8) / 8)
        ((sy + vscroll p v % 8) % 8) ((sx + hscroll p v % 8) % 8) := by
  rw [screenPixel, cellPixel]
  cases cellEntry p v ((sy + vscroll p v % 8) / 8) ((sx + hscroll p v % 8) / 8) with
  | none => rfl
  | some e =>
    rw [Option.bind_some, tilePixel]
    dsimp only
    cases patternRow p v (tileIndex e) (flipped (vflip e) ((sy + vscroll p v % 8) % 8)) with
    | none => rfl
    | some q => rfl

theorem cellPixel_of_outside {p : VideoParams} {v : Video} {r c : Nat} (i j : Nat)
    (h : p.vramSize ≤ entryOffset p v r c + 1) : cellPixel p v r c i j = none := by
  rw [cellPixel, cellEntry, if_pos h, Option.bind_none]

theorem cellPixel_of_entry {p : VideoParams} {v : Video} {r c : Nat} (i j : Nat)
    (h : entryOffset p v r c + 1 < p.vramSize) :
    ∃ e : Word,
      e.toNat = (vramByte v (entryOffset p v r c)).toNat * 256 + (vramByte v (entryOffset p v r c + 1)).toNat ∧
      cellPixel p v r c i j = tilePixel p v e (flipped (vflip e) i) (flipped (hflip e) j) :=
  ⟨_, wordOf_toNat _ _, by rw [cellPixel, cellEntry, if_neg (Nat.not_le.mpr h), Option.bind_some]⟩

theorem tilePixel_of_outside {p : VideoParams} (v : Video) {e : Word} {i : Nat} (j : Nat)
    (h : p.vramSize ≤ 32 * tileIndex e + 2 * i + 17) : tilePixel p v e i j = none := by
  rw [tilePixel, patternRow, if_pos h, Option.bind_none]

/-- Where the pattern row is in VRAM, the colour index is a bit of each of its four plane bytes (R219, R221). -/
theorem tilePixel_of_row {p : VideoParams} (v : Video) {e : Word} {i q : Nat} (j : Nat)
    (hq : q = 32 * tileIndex e + 2 * i) (h : q + 17 < p.vramSize) :
    tilePixel p v e i j = pixelColour p v (paletteRow e)
      ((vramByte v (q + 17)).toNat / 2 ^ (7 - j) % 2 * 8 + (vramByte v (q + 16)).toNat / 2 ^ (7 - j) % 2 * 4 +
        (vramByte v (q + 1)).toNat / 2 ^ (7 - j) % 2 * 2 + (vramByte v q).toNat / 2 ^ (7 - j) % 2) := by
  subst hq
  rw [tilePixel, patternRow, if_neg (Nat.not_le.mpr h), Option.bind_some, colourIndex_eq]

/-- Settles O60, going down from the entry to the pattern row to the colour. -/
theorem screenPixelAsArithmetic : Obligations.ScreenPixelAsArithmetic := by
  intro p v sy sx hs vs mb X Y e hhs hvs hmb hX hY he
  have hpixel : screenPixel p v sy sx = cellPixel p v (Y / 8) (X / 8) (Y % 8) (X % 8) := by
    rw [screenPixel_eq_cellPixel, hscroll_eq, ← hhs, vscroll, ← hvs, ← hX, ← hY]
  have hoff : entryOffset p v (Y / 8) (X / 8) = e := by
    rw [entryOffset, hscroll_eq, ← hhs, vscroll, ← hvs, mapbase_eq, ← hmb, he]
  rw [hpixel]
  refine ⟨fun hout => cellPixel_of_outside _ _ (hoff ▸ hout), fun hin E q k hE hq hk => ?_⟩
  obtain ⟨w, hw, hcell⟩ := cellPixel_of_entry (Y % 8) (X % 8) (hoff ▸ hin)
  obtain rfl : E = w.toNat := by rw [hE, hw, hoff]
  rw [← tileIndex_eq] at hq
  rw [hcell, flipped_vflip, flipped_hflip, ← paletteRow_eq]
  refine ⟨fun hout => tilePixel_of_outside v _ (hq ▸ hout), fun hin ci hci => ?_⟩
  rw [tilePixel_of_row v _ hq hin, ← hk, ← hci]
  exact ⟨fun h0 => h0 ▸ pixelColour_zero p v _, pixelColour_of_absentRow p v ci, pixelColour_of_entry p v⟩

/-! ### The frame pixel by pixel (R226 to R230, R233) -/

theorem flipped_lt {k : Nat} (flip : Bool) (h : k < 8) : flipped flip k < 8 := by
  cases flip
  · exact h
  · show 7 - k < 8
    omega

/-- A pattern column lands on a column of the scrolled grid exactly when the cell is the one there and the pattern
column is the mirror of the column's place in it (R226); the same for rows. -/
theorem lands_iff (flip : Bool) (c j X : Nat) (hj : j < 8) :
    8 * c + flipped flip j = X ↔ c = X / 8 ∧ j = flipped flip (X % 8) := by
  cases flip
  · show 8 * c + j = X ↔ c = X / 8 ∧ j = X % 8
    omega
  · show 8 * c + (7 - j) = X ↔ c = X / 8 ∧ j = 7 - X % 8
    omega

/-- A drawing operation writes `o` at the output pixel `(y, x)` and, where `o` is none, leaves it. -/
def Writes (p : VideoParams) (y x : Nat) (op : Frame → Frame) (o : Option Rgb) : Prop :=
  ∀ f : Frame, f.sized p → pixelAt (op f) y x = o.or (pixelAt f y x)

theorem Writes.nothing (p : VideoParams) (y x : Nat) : Writes p y x id none := fun _ _ => rfl

/-- A loop of which one round may write the pixel, and that only under the loop's own condition `P`. -/
theorem Writes.loop {p : VideoParams} {y x n owner : Nat} {P : Prop} [Decidable P] {g : Nat → Frame → Frame}
    {w : Nat → Option Rgb} (howner : owner < n) (hsized : ∀ k f, f.sized p → (g k f).sized p)
    (hw : ∀ k, k < n → Writes p y x (g k) (if P ∧ k = owner then w k else none)) :
    Writes p y x (fun f => (List.range n).foldl (fun f1 k => g k f1) f) (if P then w owner else none) := by
  intro f hf
  rw [pixelAt_foldl (p := p) (fun f1 k => g k f1) (fun k => if P ∧ k = owner then w k else none) y x owner _ f hf
    hsized (fun k hk => hw k (List.mem_range.mp hk)) (fun k _ hne => if_neg fun h => hne h.2),
    if_pos (List.mem_range.mpr howner)]
  simp only [and_true]

section
variable {p : VideoParams} {v : Video} {y x Y X : Nat} (hs : 1 ≤ p.scale)
  (hy : y < p.gridH * 8 * p.scale) (hx : x < p.gridW * 8 * p.scale)
  (hY : y / p.scale + vscroll p v % 8 = Y) (hX : x / p.scale + hscroll p v % 8 = X)
include hs hy hx hY hX

/-- A pattern pixel writes the output pixel when it lands on the pixel's row and column of the scrolled grid. -/
theorem drawPixel_writes (e : Word) (q : Planes) (r c i j : Nat) :
    Writes p y x (drawPixel p v e q r c i j)
      (if 8 * r + flipped (vflip e) i = Y ∧ 8 * c + flipped (hflip e) j = X
        then pixelColour p v (paletteRow e) (colourIndex q j) else none) := by
  intro f hf
  rw [drawPixel]
  cases pixelColour p v (paletteRow e) (colourIndex q j) with
  | none => rw [ite_self]; rfl
  | some colour =>
    rw [pixelAt_placePixel hf _ _ _ _ _ hs hy hx]
    congr 2
    apply propext
    omega

/-- A pattern row writes it when it lands on the pixel's row and its cell is in the pixel's column of cells. -/
theorem drawRow_writes (e : Word) (r c i : Nat) :
    Writes p y x (drawRow p v e r c i)
      (if 8 * r + flipped (vflip e) i = Y ∧ c = X / 8
        then tilePixel p v e i (flipped (hflip e) (X % 8)) else none) := by
  unfold drawRow tilePixel
  cases patternRow p v (tileIndex e) i with
  | none => rw [Option.bind_none, ite_self]; exact .nothing p y x
  | some q =>
    refine Writes.loop (w := fun j => pixelColour p v (paletteRow e) (colourIndex q j))
      (flipped_lt _ (Nat.mod_lt _ (by omega))) (fun j _ => drawPixel_sized v e q r c i j) fun j hj => ?_
    have h := drawPixel_writes hs hy hx hY hX e q r c i j
    simpa only [lands_iff (hflip e) c j X hj, and_assoc] using h

/-- A cell writes it when it is the cell at the pixel's place in the scrolled grid. -/
theorem drawCell_writes (r c : Nat) :
    Writes p y x (drawCell p v r c)
      (if r = Y / 8 ∧ c = X / 8 then cellPixel p v r c (Y % 8) (X % 8) else none) := by
  unfold drawCell cellPixel
  cases cellEntry p v r c with
  | none => rw [Option.bind_none, ite_self]; exact .nothing p y x
  | some e =>
    refine Writes.loop (w := fun i => tilePixel p v e i (flipped (hflip e) (X % 8)))
      (flipped_lt _ (Nat.mod_lt _ (by omega))) (fun i _ => drawRow_sized v e r c i) fun i hi => ?_
    have h := drawRow_writes hs hy hx hY hX e r c i
    simpa only [lands_iff (vflip e) r i Y hi, and_right_comm] using h

/-- A row of cells writes it when it is the pixel's; the extra column of cells covers the horizontal scroll. -/
theorem drawCells_writes (r : Nat) :
    Writes p y x (fun f => (List.range (p.gridW + 1)).foldl (fun f1 c => drawCell p v r c f1) f)
      (if r = Y / 8 then cellPixel p v r (X / 8) (Y % 8) (X % 8) else none) := by
  have hcol : x / p.scale < p.gridW * 8 := (Nat.div_lt_iff_lt_mul hs).mpr hx
  exact Writes.loop (w := fun c => cellPixel p v r c (Y % 8) (X % 8)) (by omega)
    (fun c _ => drawCell_sized v r c) fun c _ => drawCell_writes hs hy hx hY hX r c

/-- All rows of cells, with the extra one that covers the vertical scroll. -/
theorem pixelAt_renderFrame :
    pixelAt (renderFrame p v) y x = cellPixel p v (Y / 8) (X / 8) (Y % 8) (X % 8) := by
  have hrow : y / p.scale < p.gridH * 8 := (Nat.div_lt_iff_lt_mul hs).mpr hy
  have h := Writes.loop (P := True) (n := p.gridH + 1) (owner := Y / 8)
    (w := fun r => cellPixel p v r (X / 8) (Y % 8) (X % 8)) (by omega)
    (fun r _ hf => foldl_keeps (Frame.sized p) _ _ _ hf fun _ c h1 => drawCell_sized v r c h1)
    fun r _ => by simpa only [true_and] using drawCells_writes hs hy hx hY hX r
  rw [if_pos trivial] at h
  rw [renderFrame, h _ (blankFrame_sized p), pixelAt_blankFrame, Option.or_none]

end

/-- Settles O53: the frame shows the cell pixel that the screen position names. -/
theorem everyPixelComesFromOneCell : Obligations.EveryPixelComesFromOneCell := by
  rintro p v y x ⟨-, -, -, -, -, -, -, -, -, -, hs⟩ hy hx
  rw [screenPixel_eq_cellPixel, pixelAt_renderFrame hs hy hx rfl rfl]

end Sys2Proof.Machine
end

section
/-! The statements about faults and signals (60_exceptions.md): where InvalidAddressingMode is raised, the step at an
unknown word, the address a fault is recorded against, and what a debug read gives. -/

namespace Sys2Proof.Machine

/-! ### InvalidAddressingMode (R267) -/

/-- By the invariant, a core that is not faulted holds no fault record (10_state.md R35). -/
theorem State.Inv.fault_eq_none {s : State} (hs : s.Inv) (hnf : s.faulted = false) : s.fault = none := by
  simpa [hs.fault_iff] using hnf

/-- Settles O17: the raisers are the resolver's own clauses; a running core that meets the invariant holds no fault
record before its step, and a record that the step makes is an AddressError
(`stepFaultsAreAddressErrorsOutOfBounds`). -/
theorem invalidAddressingModesAreRaised : Obligations.InvalidAddressingModesAreRaised := by
  refine ⟨fun a0 reg n s hreg => ⟨_, resolve_mode7_raised a0 n s hreg, rfl, rfl⟩,
    fun a0 v x n s => ⟨_, rfl, rfl, rfl⟩, fun s t mode reg a0 hs hrun h hfault => ?_⟩
  have ⟨_, hnf, _⟩ := hrun
  obtain ⟨addr, n, k, he, -⟩ :=
    stepFaultsAreAddressErrorsOutOfBounds s t _ hrun (hs.fault_eq_none hnf) h hfault
  cases he

/-! ### Unknown words (R264, R265) -/

/-- The signal of an unknown word, field by field: the log grows, and the core halts under UNKNOWN_POLICY = halt. -/
theorem unknownOpcode_eq (op : Word) (a0 : Long) (s : State) : unknownOpcode op a0 s =
    { s with log := s.log ++ [.unknownInstruction op a0], halted := s.halted || s.params.unknownPolicy == .halt } := by
  unfold unknownOpcode
  cases h : s.params.unknownPolicy with
  | continues => simp [signal]
  | halt => simp [signal]

/-- A step at an unknown word is its signal, with pc past the word (30_encoding.md R96). -/
theorem step_of_unknown {s : State} {op : Word} (hrun : Running s) (hw : WordAt s s.pc op)
    (hk : handlerOf s.params op = none) : step s = .next (unknownOpcode op s.pc (setPc (s.pc + 2#32) s)) := by
  simp only [step_of_running hrun, fetchInstr, fetch16_of_wordAt hw, hk]

/-- Settles O30: the core was not halted before, so it is halted by the policy alone. -/
theorem unknownWordIsSignalled : Obligations.UnknownWordIsSignalled := by
  intro s op hrun hw hk
  have ⟨_, _, hnh⟩ := hrun
  rw [step_of_unknown hrun hw hk, unknownOpcode_eq, setPc_halted, hnh, Bool.false_or]
  rfl

/-! ### The address a fault is recorded against (R262, R269) -/

/-- pc past the words of an instruction, less the instruction's length, is the address of its opcode word. -/
theorem pc_past_sub_instrLength (pc : Long) {p : CoreParams} {k : Handler} {op : Word} {exts : List Word}
    (hl : exts.length = extCount p k op) :
    pc + BitVec.ofNat 32 (2 * exts.length + 2) - BitVec.ofNat 32 (instrLength (assemble k op exts)) = pc := by
  rw [instrLength_assemble k op exts p hl, BitVec.add_sub_cancel]

/-- Settles O39: of the ways a step ends (`step_cases`), a fetch records pc itself, and an instruction's stack access
records its pc less its length. -/
theorem faultIsRecordedAgainstItsStep : Obligations.FaultIsRecordedAgainstItsStep := by
  rintro s t ⟨-, hnf, hnh⟩ h hf
  rcases step_cases h with ⟨-, hs, -⟩ | ⟨-, addr, pc', -, rfl⟩ | ⟨-, op, -, -, rfl⟩ | ⟨-, op, k, exts, -, -, hl, he⟩
  · exact absurd hs (by simp [hnf, hnh])
  · exact ⟨_, rfl⟩
  · rw [unknownOpcode_faulted, setPc_faulted, hnf] at hf
    cases hf
  · obtain ⟨-, -, ⟨hsame, -⟩ | ⟨ea, kind, -, -, -, hfault⟩⟩ := exec_leaves he
    · cases hf.symm.trans (hsame.trans hnf)
    · rw [setPc_pc, pc_past_sub_instrLength s.pc hl] at hfault
      exact ⟨_, hfault⟩

/-! ### A step after a reset (R261) -/

/-- Settles O37: the fetch, the signal and every instruction end in a next state (`step_next`). -/
theorem stepNeverAborts : Obligations.StepNeverAborts := fun _ => step_next

/-! ### Debug reads (R276) -/

theorem debugRead_length (a k : Nat) (s : State) : (debugRead a k s).length = min k (s.params.memSize - a) := by
  rw [debugRead, List.length_map, List.length_range]

theorem debugRead_getElem (a k : Nat) (s : State) {j : Nat} (hj : j < (debugRead a k s).length) :
    (debugRead a k s)[j] = memByte s.mem (a + j) := by
  simp only [debugRead, List.getElem_map, List.getElem_range]

/-- Settles O57: the length and the bytes of a debug read. -/
theorem debugReadGivesStoredBytes : Obligations.DebugReadGivesStoredBytes := fun a k s =>
  ⟨debugRead_length a k s, fun _ hj => (List.getD_eq_getElem _ _ hj).trans (debugRead_getElem a k s hj)⟩

end Sys2Proof.Machine
end

section
/-! The statements about reset, the header strings and the end of a run (70_reset_and_hazards.md). -/

namespace Sys2Proof.Machine

/-! ### A reset that fails and one that succeeds (R291 to R293) -/

/-- Settles O47: a reset compares the image's length with both bounds before it changes anything. -/
theorem failedResetChangesNothing : Obligations.FailedResetChangesNothing := fun _ _ _ =>
  ⟨fun hshort => if_pos hshort, fun hmin hlong => (if_neg (Nat.not_lt.mpr hmin)).trans (if_pos hlong)⟩

/-- A reset that returns no failure leaves the state of R291. -/
theorem eq_afterReset_of_hostReset {r : ResetParams} {image : List Byte} {s t : State}
    (h : hostReset r image s = (t, none)) : t = afterReset r image s := by
  obtain ⟨hshort, hlong⟩ := failedResetChangesNothing r image s
  by_cases hmin : r.minImageSize ≤ image.length
  · by_cases hmax : image.length ≤ s.params.memSize
    · cases h.symm.trans (hostReset_of_fits hmin hmax)
      rfl
    · cases h.symm.trans (hlong hmin (Nat.lt_of_not_le hmax))
  · cases h.symm.trans (hshort (Nat.lt_of_not_le hmin))

theorem running_afterReset (r : ResetParams) (image : List Byte) (s : State) : Running (afterReset r image s) :=
  ⟨rfl, rfl, rfl⟩

/-- Settles O48: the reset checks no pc, so the fetch of the first step does (`step_of_noWordAt`). -/
theorem firstStepAfterResetStartsAtTheHeaderPc : Obligations.FirstStepAfterResetStartsAtTheHeaderPc := by
  intro r image s t h
  obtain rfl := eq_afterReset_of_hostReset h
  exact ⟨running_afterReset r image s, headerPc_toNat image,
    fun hout => ⟨_, step_of_noWordAt (running_afterReset r image s) hout, rfl, rfl⟩⟩

/-! ### The header strings (R295) -/

/-- What `trim` leaves of a header field's text is its trimmed text. -/
theorem trimmedField_trim (s : State) (lo hi L : Nat) :
    TrimmedField s lo hi L (trim (fieldText (headerBytes lo hi L s.mem))) := by
  obtain ⟨before, after, hsplit, hblank, hends⟩ := trim_spec (fieldText (headerBytes lo hi L s.mem))
  refine ⟨fun a => charText (headerBytes lo hi L s.mem) (memByte s.mem a) (a - lo), before, after,
    fun a _ _ hascii => if_pos hascii, hsplit.trans (fieldText_headerBytes lo hi L s.mem),
    fun c hc => (isBlank_iff c).mp (hblank c hc), fun c hc hb => ?_⟩
  cases (hends c hc).symm.trans ((isBlank_iff c).mpr hb)

/-- Settles O59. -/
theorem headerTitleIsTheTrimmedField : Obligations.HeaderTitleIsTheTrimmedField := fun s L =>
  trimmedField_trim s 0x120 0x150 L

/-- The region table, row by row. -/
theorem regionName_table :
    regionName "J".toList = "Japan".toList ∧ regionName "U".toList = "USA".toList ∧
    regionName "E".toList = "Europe".toList ∧ regionName "JU".toList = "USA + Japan".toList ∧
    regionName "UE".toList = "USA + Europe".toList := by decide

/-- A text that no row of the region table lists names itself. -/
theorem regionName_of_unlisted {code : List Char} (hJ : code ≠ "J".toList) (hU : code ≠ "U".toList)
    (hE : code ≠ "E".toList) (hJU : code ≠ "JU".toList) (hUE : code ≠ "UE".toList) : regionName code = code := by
  rw [regionName, if_neg hJ, if_neg hU, if_neg hE, if_neg hJU, if_neg hUE]

/-- Settles O49: the region is the name of the trimmed field. -/
theorem regionNamesFollowTheTable : Obligations.RegionNamesFollowTheTable := by
  intro s L
  obtain ⟨hJ, hU, hE, hJU, hUE⟩ := regionName_table
  exact ⟨_, trimmedField_trim s 0x1F0 0x1F4 L, fun h => (congrArg regionName h).trans hJ,
    fun h => (congrArg regionName h).trans hU, fun h => (congrArg regionName h).trans hE,
    fun h => (congrArg regionName h).trans hJU, fun h => (congrArg regionName h).trans hUE, regionName_of_unlisted⟩

/-! ### Steps before a reset and at the end of a run (R297, R303) -/

/-- Settles O38: a step looks at `ready` first. -/
theorem stepBeforeResetIsRefused : Obligations.StepBeforeResetIsRefused := by
  intro s hready
  simp [step, hready]

/-- The displacement of `BRA.S *`, -2, undoes the fetch of its word (41_control.md R166). -/
theorem pc_of_idleBranch (pc : Long) : pc + 2#32 + (0xFE#8).signExtend 32 = pc := by
  rw [BitVec.add_assoc]
  exact BitVec.add_zero pc

/-- A step at `BRA.S *` branches to its own word. -/
theorem step_of_idleWord {s : State} (hrun : Running s) (hw : WordAt s s.pc idleWord) : step s = .next s := by
  obtain ⟨hbranch, -⟩ := braStepFromItsWord s 0xFE#8 hrun hw
  rw [hbranch (by decide), pc_of_idleBranch]

/-- Settles O36: a stopped core does nothing, and any other end of a run is a running core at `BRA.S *`. -/
theorem endOfARunIsAFixedPoint : Obligations.EndOfARunIsAFixedPoint := by
  intro s hready hend
  by_cases hs : Stopped s
  · exact step_of_stopped hready hs
  · obtain ⟨hf, hh⟩ := not_or.mp hs
    have hrun : Running s := ⟨hready, Bool.eq_false_of_not_eq_true hf, Bool.eq_false_of_not_eq_true hh⟩
    exact step_of_idleWord hrun ((hend.resolve_left hf).resolve_left hh)

end Sys2Proof.Machine
end
